-- ==== Sys2Proof/Word.lean ====
section
/-! DEFINITION. The words the core's interface and its tables are made of (spec/30_encoding.md §1): symbols,
bytes, the correlator window, and one word of each format of rule R70. -/

namespace Sys2Proof

/-- A symbol: one binary level (R11, R14). `false` is the low level 0, `true` the high level 1. -/
abbrev Sym := Bool

/-- One byte of the frame buffer, or of the document's input stream (R50, R72). -/
abbrev Byte := BitVec 8

/-- An input word, bits `rst, sym_valid, sym` from bit 2 down to bit 0 (R71). -/
abbrev InWord := BitVec 3

/-- The correlator window (R22). -/
abbrev Window := BitVec 20

/-- A dispatch key, bits `mode, phase, sym` (R74). -/
abbrev KeyWord := BitVec 3

/-- The classification of a second-symbol step, bits `eq, trip, rs, bc, full` (R75). -/
abbrev OutcomeWord := BitVec 5

/-- The formats of the opcode table. -/
inductive Format where
  | inp
  | byte
  | key
  | outcome
  | internal
  deriving DecidableEq, Repr

/-- A word of one of the table's formats. `internal` carries no bits: FINALIZE has no encoding (R171). -/
inductive EncWord where
  | inp (w : InWord)
  | byte (b : Byte)
  | key (k : KeyWord)
  | outcome (o : OutcomeWord)
  | internal
  deriving DecidableEq, Repr

/-- What the host can present in one transaction: an IN word (R71), or one byte of the document's input
stream (R72). KEY and OUTCOME words never stand at the port: the core computes them. -/
inductive PortWord where
  | inp (w : InWord)
  | byte (b : Byte)
  deriving DecidableEq, Repr

end Sys2Proof
end

