-- ==== Sys2Proof/Config.lean ====
section
/-! DEFINITION. The configuration parameters of spec/00_scope.md R6 (the fields of R32), the legal
configurations (R34), and the free values of the frame output (R80). -/

namespace Sys2Proof

/-- The configuration, static while the core runs (R6, R7, R32). The widths of `capacity`, `tolerance` and
`crc16MinLen` are unbounded, as R32 allows. -/
structure Config where
  /-- CAPACITY, written C: the bytes of the frame buffer. -/
  capacity : Nat
  /-- TOLERANCE, written T: the violations a frame survives. -/
  tolerance : Nat
  /-- PRE_ENC: the pattern the window is compared with, oldest bit in bit 19 (R77). -/
  preEnc : Window
  /-- PRE_LOG: the logical preamble, earliest bit in bit 9 (R78). -/
  preLog : BitVec 10
  /-- CRC16_MIN_LEN: the least frame length that can carry the CRC-16 mark (R176). -/
  crc16MinLen : Nat
  /-- CRC16_REFLECTED: which of the two updates of R175. -/
  crc16Reflected : Bool
  /-- WINDOW_INIT: the window after reset (R260). -/
  windowInit : Window
  /-- WINDOW_CLEAR_ON_LOCK: whether a lock clears the window (R103). -/
  windowClearOnLock : Bool
  deriving DecidableEq, Repr

/-- The reference values of R6. -/
def Config.reference : Config where
  capacity := 38
  tolerance := 0
  preEnc := 0xAAA66#20
  preLog := 0x3F5#10
  crc16MinLen := 4
  crc16Reflected := false
  windowInit := 0x00000#20
  windowClearOnLock := false

/-- R34: the one illegal value is a capacity of 0. -/
abbrev Config.Legal (c : Config) : Prop := 1 ≤ c.capacity

/-- The number of bits of `n`, which is `ceil(log2(n+1))`. -/
def bitLength (n : Nat) : Nat := if n = 0 then 0 else Nat.log2 n + 1

/-- CW, the byte count's width: `ceil(log2(C+1))` (R6). -/
def Config.countWidth (c : Config) : Nat := bitLength c.capacity

/-- VW, the violation count's width: `ceil(log2(T+2))` (R6). -/
def Config.violWidth (c : Config) : Nat := bitLength (c.tolerance + 1)

/-- The number of state bits, `1 + 20 + 1 + 1 + 8 + 3 + CW + VW + 8*C` (R20). -/
def Config.stateBits (c : Config) : Nat :=
  1 + 20 + 1 + 1 + 8 + 3 + c.countWidth + c.violWidth + 8 * c.capacity

/-- FREE VALUE: what `frame_len` carries in step `k` when `frame_valid = 0` (R80, U12; notes/assumptions/6.md). -/
opaque Config.freeFrameLen (k : Nat) : Nat

/-- FREE VALUE: what byte `i` of `frame_data` carries in step `k` where R80 gives it no value. -/
opaque Config.freeFrameData (k i : Nat) : Byte

/-- FREE VALUE: what `frame_crc16_ok` carries in step `k` when `frame_valid = 0` (R80, U12). -/
opaque Config.freeFrameCrc16Ok (k : Nat) : Bool

end Sys2Proof
end

