-- ==== Sys2Proof/Machine/State.lean ====
section
/-! DEFINITION. The state (spec/10_state.md R20), the interface the model carries beside it, the reasons a step
can stop, and the state after reset (R40). Plain data. -/

namespace Sys2Proof.Machine

/-- The Synchronization Mode (R21). -/
inductive Mode where
  | hunting
  | locked
  deriving DecidableEq, Repr

/-- The frame buffer as cells: addresses strictly rising, no byte 0x00 listed; an unlisted index reads 0x00, the
value DS_reset gives every entry (R31, R50). -/
abbrev Memory := List Host.Cell

/-- Format FRAME: an emitted frame (R79). -/
structure Frame where
  len : Nat
  bytes : List Byte
  crc16Ok : Bool
  deriving DecidableEq, Repr

/-- One transaction of the host: a port word (R71, R72) and, if the host changes the configuration with it, the
configuration it presents (R33, R263). -/
structure Transaction where
  word : PortWord
  cfg : Option Config
  deriving DecidableEq, Repr

/-- Reasons a step faults. The core itself never does (R230): each is a model fault that no reachable state
raises, and safe, because the spec gives no effect there. -/
inductive Fault where
  /-- A buffer index outside 0..C-1 (R53, U14). Raised by every buffer access. Safe. -/
  | bufferIndex (i : Nat)
  /-- A byte count taken below 0 (R144 at a count of 0, a wrap N5 gives no behaviour). Raised by RESYNC. Safe. -/
  | countUnderflow
  deriving DecidableEq, Repr

/-- Reasons a step is refused. -/
inductive Refusal where
  /-- No meaning yet: raised by a rejected arm of exec only. Safe. -/
  | notModelled (mnemonic : String)
  /-- The configuration is not legal (R34, D15, U16: the spec has the model refuse it). Raised by the fetch. Safe. -/
  | illegalConfig
  /-- The host changes the configuration in a transaction without `rst` (R33, D13, U16: the spec has the model
  refuse it). Raised by the fetch. Safe. -/
  | configChangeOutsideReset
  deriving DecidableEq, Repr

/-- The machine's state: the tuple of R20, the configuration in force (R32; notes/assumptions/1.md), and the
interface: what the host still presents, what the core drives in this transaction, the step's number. -/
structure State where
  /-- Synchronization Mode (R21). -/
  mode : Mode
  /-- The correlator window (R22). -/
  win : Window
  /-- Which symbol of a pair comes next: `false` the first, `true` the second (R24). -/
  phase : Bool
  /-- The level of the pair's first symbol (R25). -/
  ref : Sym
  /-- The in-progress byte (R26). -/
  acc : Byte
  /-- Bits since the last byte boundary, modulo 8 (R27). -/
  bitpos : BitVec 3
  /-- Bytes stored (R28). -/
  count : Nat
  /-- Violations since the last DS_reset (R29). -/
  viol : Nat
  /-- The frame buffer (R30). -/
  buf : Memory
  /-- The configuration fields (R32). -/
  cfg : Config
  /-- The transactions the host has still to present, next first (R270). -/
  input : List Transaction
  /-- The frame driven in the last step, `none` for `frame_valid = 0` (R80). -/
  frameOut : Option Frame
  /-- The last step's number, counted from 1 (R270); the model's own. -/
  stepNo : Nat
  deriving DecidableEq, Repr

/-- The state after reset under the reference configuration (R40, R260), nothing presented yet. -/
def State.reset : State where
  mode := .hunting
  win := Config.reference.windowInit
  phase := false
  ref := false
  acc := 0x00#8
  bitpos := 0#3
  count := 0
  viol := 0
  buf := []
  cfg := Config.reference
  input := []
  frameOut := none
  stepNo := 0

end Sys2Proof.Machine
end

