-- ==== Sys2Proof/Machine/Crc.lean ====
section
/-! DEFINITION. The CRC-16 of spec/43_finalizer_crc.md R175, both updates, written as the rule's loops. -/

namespace Sys2Proof.Machine

/-- One bit of the non-reflected update, polynomial 0x1021 (R175, GK1; notes/assumptions/15.md). -/
def crcShiftLeft (r : BitVec 16) : BitVec 16 :=
  if r.getLsbD 15 then (r <<< 1) ^^^ 0x1021#16 else r <<< 1

/-- One bit of the reflected update, polynomial 0x8408 (R175, GK1). -/
def crcShiftRight (r : BitVec 16) : BitVec 16 :=
  if r.getLsbD 0 then (r >>> 1) ^^^ 0x8408#16 else r >>> 1

/-- `f` applied `n` times. -/
def iterate (f : BitVec 16 → BitVec 16) : Nat → BitVec 16 → BitVec 16
  | 0, r => r
  | n + 1, r => iterate f n (f r)

/-- The register after one byte (R175). -/
def crcByte (reflected : Bool) (r : BitVec 16) (b : Byte) : BitVec 16 :=
  if reflected then iterate crcShiftRight 8 (r ^^^ b.setWidth 16)
  else iterate crcShiftLeft 8 (r ^^^ (b.setWidth 16 <<< 8))

/-- The running register from `r` over a byte sequence. -/
def crcFrom (reflected : Bool) : BitVec 16 → List Byte → BitVec 16
  | r, [] => r
  | r, b :: bs => crcFrom reflected (crcByte reflected r b) bs

/-- `crc16(bytes)`: from 0xFFFF, returned as it stands (R175). -/
def crc16 (reflected : Bool) (bytes : List Byte) : BitVec 16 := crcFrom reflected 0xFFFF#16 bytes

end Sys2Proof.Machine
end

