-- ==== Sys2Proof/Machine/Memory.lean ====
section
/-! DEFINITION. The frame buffer's cells in canonical form: reading and writing one byte, and the form itself. -/

namespace Sys2Proof.Machine

/-- What an index no cell lists reads as: the reset contents of the buffer (R31, R40). -/
def Memory.unlisted : Byte := 0x00#8

/-- The byte at index `i`. -/
def Memory.read : Memory → Nat → Byte
  | [], _ => Memory.unlisted
  | (a, v) :: m, i => if i = a then v else Memory.read m i

/-- The cells without index `i`. -/
def Memory.erase (m : Memory) (i : Nat) : Memory := m.filter (fun c => c.1 != i)

/-- A cell put before the first cell of a greater index. -/
def Memory.insert : Memory → Nat → Byte → Memory
  | [], i, v => [(i, v)]
  | (a, x) :: m, i, v => if i < a then (i, v) :: (a, x) :: m else (a, x) :: Memory.insert m i v

/-- The cells with the byte at index `i` replaced; writing what an unlisted index reads as lists nothing. -/
def Memory.write (m : Memory) (i : Nat) (v : Byte) : Memory :=
  if v = Memory.unlisted then m.erase i else (m.erase i).insert i v

/-- The canonical form: addresses strictly rising, nothing listed that reads as an unlisted index does. -/
def Memory.wf : Memory → Bool
  | [] => true
  | (a, v) :: m => v != Memory.unlisted && m.all (fun c => decide (a < c.1)) && Memory.wf m

/-- Every listed index is below `n`. -/
def Memory.below (m : Memory) (n : Nat) : Bool := m.all (fun c => decide (c.1 < n))

end Sys2Proof.Machine
end

