-- ==== Sys2Proof/Machine/Operands.lean ====
section
/-! DEFINITION. Every operand form (spec/30_encoding.md R76): the levels of input bytes, the window bit, the
logical bit, the accumulator, the marker operands, and the dispatch key. -/

namespace Sys2Proof.Machine

/-- The level of an input byte: 0x00 is low, any other byte high (R72, R73). -/
def byteLevel (b : Byte) : Sym := b != 0x00#8

/-- The IN word an input byte stands for (R72). -/
def byteToIn (b : Byte) : InWord := if b = 0x00#8 then 0b010#3 else 0b011#3

/-- `corr_bit(s)`: the window bit is the inverted level (R101). -/
def corrBit (s : Sym) : Bool := !s

/-- The window with one bit shifted in, as R102 writes it. -/
def shiftWindow (win : Window) (s : Sym) : Window :=
  ((win <<< 1) &&& 0xFFFFF#20) ||| (BitVec.ofBool (corrBit s)).setWidth 20

/-- `man_bit(ref)`: reference high gives 0, reference low gives 1 (R125). -/
def manBit (ref : Sym) : Bool := !ref

/-- The accumulator with one decoded bit shifted in, as R141 writes it. -/
def shiftAcc (acc : Byte) (bit : Bool) : Byte :=
  ((acc <<< 1) ||| (BitVec.ofBool bit).setWidth 8) &&& 0xFF#8

/-- RESYNC_BYTE, `PRE_LOG[9:2]` (R76, R143, D24). -/
def resyncByte (c : Config) : Byte := c.preLog.extractLsb' 2 8

/-- RESYNC_LOW2, `PRE_LOG[1:0]` (R76, R143, D24). -/
def resyncLow2 (c : Config) : BitVec 2 := c.preLog.extractLsb' 0 2

/-- The mode's encoding (R21). -/
def Mode.bit : Mode → Bool
  | .hunting => false
  | .locked => true

/-- The dispatch key `{mode, phase, sym}` (R74). -/
def keyWord (s : State) (b : Sym) : KeyWord :=
  BitVec.ofBool s.mode.bit ++ BitVec.ofBool s.phase ++ BitVec.ofBool b

end Sys2Proof.Machine
end

