-- ==== Sys2Proof/Machine/Flags.lean ====
section
/-! DEFINITION. Every flag the spec computes: the status output (R35), the CRC-16 verdict (R176) and the five
bits of the OUTCOME word (R75). None is stored (R37). -/

namespace Sys2Proof.Machine

/-- The status output `locked` (R35). -/
def State.isLocked (s : State) : Bool := s.mode == .locked

/-- The CRC-16 verdict over a frame's bytes (R176). -/
def crcVerdict (c : Config) (count : Nat) (bytes : List Byte) : Bool :=
  decide (c.crc16MinLen ≤ count) && crc16 c.crc16Reflected bytes == 0x0000#16

/-- `eq`: the two symbols of the pair are equal (R75). -/
def flagEq (s : State) (b : Sym) : Bool := b == s.ref

/-- `trip`: a violation, and it exceeds the tolerance (R75). -/
def flagTrip (s : State) (b : Sym) : Bool :=
  flagEq s b && decide (s.viol + 1 > s.cfg.tolerance)

/-- `acc'`: the accumulator with this pair's bit (R75). -/
def accNext (s : State) : Byte := shiftAcc s.acc (manBit s.ref)

/-- `bitpos'` (R75). -/
def bitposNext (s : State) : BitVec 3 := s.bitpos + 1

/-- `rs`: the embedded preamble ends here (R75, R143). -/
def flagRs (s : State) (b : Sym) : Bool :=
  !flagTrip s b && bitposNext s == 2#3 && decide (2 ≤ s.count) &&
    s.buf.read (s.count - 1) == resyncByte s.cfg && (accNext s).extractLsb' 0 2 == resyncLow2 s.cfg

/-- `bc`: this bit completes a byte (R75). -/
def flagBc (s : State) (b : Sym) : Bool := !flagTrip s b && bitposNext s == 0#3

/-- `full`: the byte it completes fills the buffer (R75). -/
def flagFull (s : State) (b : Sym) : Bool := flagBc s b && decide (s.count + 1 = s.cfg.capacity)

/-- The OUTCOME word `{eq, trip, rs, bc, full}` of a second symbol (R75). -/
def outcomeWord (s : State) (b : Sym) : OutcomeWord :=
  BitVec.ofBool (flagEq s b) ++ BitVec.ofBool (flagTrip s b) ++ BitVec.ofBool (flagRs s b) ++
    BitVec.ofBool (flagBc s b) ++ BitVec.ofBool (flagFull s b)

end Sys2Proof.Machine
end

