-- ==== Sys2Proof/Machine/Ops.lean ====
section
/-! DEFINITION. The shared operations over registers and the frame buffer: DS_reset (R31), the buffer accesses
(R51, R52), emitting a frame (R80), finalize (R171), RESET (R260). The core takes no exceptions (R230, R237), so
there is no exception entry here. -/

namespace Sys2Proof.Machine

/-- What a step answers. -/
abbrev Result := Host.Outcome State Fault Refusal

/-- An operation that can only fault, as a step's answer. -/
def answerOf : Except Fault State → Result
  | .ok s => .next s
  | .error f => .fault f

/-- `DS_reset()` (R31). -/
def State.dsReset (s : State) : State :=
  { s with phase := false, ref := false, acc := 0x00#8, bitpos := 0#3, count := 0, viol := 0, buf := [] }

/-- `RESET()` (R260). -/
def State.resetCore (s : State) : State :=
  { s with mode := .hunting, win := s.cfg.windowInit }.dsReset

/-- `BufRead(i)` (R10, R52). -/
def State.bufRead (s : State) (i : Nat) : Except Fault Byte :=
  if i < s.cfg.capacity then .ok (s.buf.read i) else .error (.bufferIndex i)

/-- `BufWrite(i, v)` (R10, R51). -/
def State.bufWrite (s : State) (i : Nat) (v : Byte) : Except Fault State :=
  if i < s.cfg.capacity then .ok { s with buf := s.buf.write i v } else .error (.bufferIndex i)

/-- `n` bytes read at increasing index from `i` (R52, R55). -/
def State.bufReadFrom (s : State) : Nat → Nat → Except Fault (List Byte)
  | _, 0 => .ok []
  | i, n + 1 =>
    match s.bufRead i with
    | .error f => .error f
    | .ok b =>
      match State.bufReadFrom s (i + 1) n with
      | .error f => .error f
      | .ok bs => .ok (b :: bs)

/-- `emit Frame(...)`: the frame is driven in this step (R80). -/
def State.emit (s : State) (f : Frame) : State := { s with frameOut := some f }

/-- The frame over `bytes` with its verdict (R79, R176). -/
def makeFrame (c : Config) (count : Nat) (bytes : List Byte) : Frame :=
  ⟨count, bytes, crcVerdict c count bytes⟩

/-- `finalize()`: emit what the buffer holds, if anything, and reset the Decoder State in every case (R171, R172). -/
def State.finalize (s : State) : Except Fault State :=
  if 1 ≤ s.count then
    match s.bufReadFrom 0 s.count with
    | .error f => .error f
    | .ok bytes => .ok (s.emit (makeFrame s.cfg s.count bytes)).dsReset
  else .ok s.dsReset

/-- `finalize()`, then HUNTING: what VIOLATION_ABORT and MAXLEN_COMPLETE do (R123, R147). -/
def State.endFrame (s : State) : Except Fault State :=
  match s.finalize with
  | .error f => .error f
  | .ok t => .ok { t with mode := .hunting }

end Sys2Proof.Machine
end

