-- ==== Sys2Proof/Machine/Assembler.lean ====
section
/-! DEFINITION. The Frame Assembler (spec/42_frame_assembler.md): the procedure ASSEMBLE (R140) and its four
outcomes as operations of their own. An outcome starts from the state before its PAIR_SECOND step, as R75
classifies it. -/

namespace Sys2Proof.Machine

/-- A decoded bit shifted in and counted (R141, R142). -/
def State.shiftIn (s : State) (bit : Bool) : State :=
  { s with acc := shiftAcc s.acc bit, bitpos := s.bitpos + 1 }

/-- `resync_hit`, over the state after the shift (R143). -/
def State.resyncHit (s : State) : Except Fault Bool :=
  if s.bitpos = 2#3 ∧ 2 ≤ s.count then
    match s.bufRead (s.count - 1) with
    | .error f => .error f
    | .ok b => .ok (b == resyncByte s.cfg && s.acc.extractLsb' 0 2 == resyncLow2 s.cfg)
  else .ok false

/-- The split at an embedded preamble: drop the marker byte, finalize, stay LOCKED (R144). -/
def State.splitFrame (s : State) : Except Fault State :=
  if s.count = 0 then .error .countUnderflow else { s with count := s.count - 1 }.finalize

/-- The byte store: `acc` at index `count`, then the count (R145, R146). -/
def State.storeByte (s : State) : Except Fault State :=
  match s.bufWrite s.count s.acc with
  | .error f => .error f
  | .ok t => .ok { t with count := t.count + 1 }

/-- The byte store that fills the buffer: finalize and go to HUNTING (R147). -/
def State.completeFrame (s : State) : Except Fault State :=
  match s.storeByte with
  | .error f => .error f
  | .ok t => t.endFrame

/-- `ASSEMBLE(bit)` (R140), in the rule's order. -/
def State.assemble (s : State) (bit : Bool) : Except Fault State :=
  let t := s.shiftIn bit
  match t.resyncHit with
  | .error f => .error f
  | .ok true => t.splitFrame
  | .ok false =>
    if t.bitpos = 0#3 then
      match t.storeByte with
      | .error f => .error f
      | .ok u => if u.count = u.cfg.capacity then u.endFrame else .ok u
    else .ok t

/-- The pair is taken: the next symbol is a first one, and a tolerated violation is counted (R122, R124). -/
def State.takePair (s : State) (e : Bool) : State :=
  { s with phase := false, viol := s.viol + e.toNat }

/-- The pair is taken and its bit shifted in: the common part of the four outcomes. -/
def State.decodePair (s : State) (e : Bool) : State := (s.takePair e).shiftIn (manBit s.ref)

/-- BIT_ACCUMULATE (R141). -/
def execBitAccumulate (e : Bool) (s : State) : Result := .next (s.decodePair e)

/-- RESYNC (R144). -/
def execResync (e : Bool) (s : State) : Result := answerOf (s.decodePair e).splitFrame

/-- BYTE_STORE (R145). -/
def execByteStore (e : Bool) (s : State) : Result := answerOf (s.decodePair e).storeByte

/-- MAXLEN_COMPLETE (R147). -/
def execMaxlenComplete (e : Bool) (s : State) : Result := answerOf (s.decodePair e).completeFrame

end Sys2Proof.Machine
end

