-- ==== Sys2Proof/Machine/BitDecoder.lean ====
section
/-! DEFINITION. The Manchester Bit Decoder (spec/41_bit_decoder.md). -/

namespace Sys2Proof.Machine

/-- The first symbol of a pair is cached (R121). -/
def State.pairFirst (s : State) (b : Sym) : State := { s with ref := b, phase := true }

/-- The second symbol of a pair (R122): a violation is counted and, beyond the tolerance, ends the frame; else the
bit goes to the assembler. -/
def State.pairSecond (s : State) (b : Sym) : Except Fault State :=
  let t := { s with phase := false }
  if b = t.ref then
    let u := { t with viol := t.viol + 1 }
    if u.viol > u.cfg.tolerance then u.endFrame else u.assemble (manBit u.ref)
  else t.assemble (manBit t.ref)

/-- PAIR_FIRST (R121). -/
def execPairFirst (b : Sym) (s : State) : Result := .next (s.pairFirst b)

/-- PAIR_SECOND (R122). -/
def execPairSecond (b : Sym) (s : State) : Result := answerOf (s.pairSecond b)

/-- VIOLATION_ABORT (R123): the violation is counted, the frame finalized, the pair's bit dropped. -/
def execViolationAbort (s : State) : Result := answerOf (s.takePair true).endFrame

end Sys2Proof.Machine
end

