-- ==== Sys2Proof/Machine/Correlator.lean ====
section
/-! DEFINITION. The Preamble Correlator (spec/40_correlator.md). -/

namespace Sys2Proof.Machine

/-- A preamble match: reset the Decoder State, clear the window if so configured, go to LOCKED (R103). -/
def State.lock (s : State) : State :=
  let t := s.dsReset
  { t with win := if t.cfg.windowClearOnLock then 0x00000#20 else t.win, mode := .locked }

/-- The hunting step's procedure (R100): shift, then test the shifted window. -/
def State.huntShift (s : State) (b : Sym) : State :=
  let t := { s with win := shiftWindow s.win b }
  if t.win = t.cfg.preEnc then t.lock else t

/-- HUNT_SHIFT (R100). The key's phase bit is ignored (R74). -/
def execHuntShift (_ignored : Bool) (b : Sym) (s : State) : Result := .next (s.huntShift b)

end Sys2Proof.Machine
end

