-- ==== Sys2Proof/Machine/Finalizer.lean ====
section
/-! DEFINITION. The Frame Finalizer as an operation of the table (spec/43_finalizer_crc.md R171). -/

namespace Sys2Proof.Machine

/-- FINALIZE (R171). It does not write the mode: its caller does. -/
def execFinalize (s : State) : Result := answerOf s.finalize

end Sys2Proof.Machine
end

