-- ==== Sys2Proof/Machine/SyncFsm.lean ====
section
/-! DEFINITION. The Driver Loop (spec/44_sync_fsm.md): what the port words do. -/

namespace Sys2Proof.Machine

/-- One symbol, dispatched by `mode` and `phase` (R200, R74). -/
def State.onSymbol (s : State) (b : Sym) : Except Fault State :=
  match s.mode, s.phase with
  | .hunting, _ => .ok (s.huntShift b)
  | .locked, false => .ok (s.pairFirst b)
  | .locked, true => s.pairSecond b

/-- RESET (R260): `sym_valid` and `sym` are ignored, so no symbol is consumed (R236). -/
def execReset (_ignored : BitVec 2) (s : State) : Result := .next s.resetCore

/-- IDLE (R203). -/
def execIdle (_ignored : Bool) (s : State) : Result := .next s

/-- SYM0 (R200). -/
def execSym0 (s : State) : Result := answerOf (s.onSymbol false)

/-- SYM1 (R200). -/
def execSym1 (s : State) : Result := answerOf (s.onSymbol true)

/-- BYTE_ZERO (R72). -/
def execByteZero (s : State) : Result := answerOf (s.onSymbol (byteLevel 0x00#8))

/-- BYTE_NONZERO (R72): the byte's level, whatever its other bits (R73). -/
def execByteNonzero (b : Byte) (s : State) : Result := answerOf (s.onSymbol (byteLevel b))

end Sys2Proof.Machine
end

