-- ==== Sys2Proof/Syntax.lean ====
section
/-! DEFINITION. The operations of spec/opcode_table.json, one constructor per row. Bits of a row's pattern that
the core ignores are kept as operands, so that no bit of an encoding is lost (notes/assumptions/20.md). -/

namespace Sys2Proof

/-- One constructor per row of the opcode table. -/
inductive Instr where
  /-- RESET, IN `1xx` (R260); `ignored` is `sym_valid, sym`. -/
  | reset (ignored : BitVec 2)
  /-- IDLE, IN `00x` (R203); `ignored` is `sym`. -/
  | idle (ignored : Bool)
  /-- SYM0, IN `010` (R200). -/
  | sym0
  /-- SYM1, IN `011` (R200). -/
  | sym1
  /-- BYTE_ZERO, the input byte 0x00 (R72). -/
  | byteZero
  /-- BYTE_NONZERO, any other input byte (R72). -/
  | byteNonzero (b : Byte)
  /-- HUNT_SHIFT, KEY `0xs` (R100); `ignored` is the key's phase bit. -/
  | huntShift (ignored : Bool) (s : Sym)
  /-- PAIR_FIRST, KEY `10s` (R121). -/
  | pairFirst (s : Sym)
  /-- PAIR_SECOND, KEY `11s` (R122). -/
  | pairSecond (s : Sym)
  /-- VIOLATION_ABORT, OUTCOME `11000` (R123). -/
  | violationAbort
  /-- BIT_ACCUMULATE, OUTCOME `e0000` (R141); `e` says that the pair was a tolerated violation. -/
  | bitAccumulate (e : Bool)
  /-- RESYNC, OUTCOME `e0100` (R144). -/
  | resync (e : Bool)
  /-- BYTE_STORE, OUTCOME `e0010` (R145). -/
  | byteStore (e : Bool)
  /-- MAXLEN_COMPLETE, OUTCOME `e0011` (R147). -/
  | maxlenComplete (e : Bool)
  /-- FINALIZE, internal, no encoding (R171). -/
  | finalize
  deriving DecidableEq, Repr

end Sys2Proof
end

