-- ==== Sys2Proof/Machine/Dispatch.lean ====
section
/-! DEFINITION. The dispatch from an instruction to its meaning. -/

namespace Sys2Proof.Machine

/-- What an instruction does. -/
def exec (i : Instr) (s : State) : Host.Outcome State Fault Refusal :=
  match i with
  | .reset x => Sys2Proof.Machine.execReset x s
  | .idle x => Sys2Proof.Machine.execIdle x s
  | .sym0 => Sys2Proof.Machine.execSym0 s
  | .sym1 => Sys2Proof.Machine.execSym1 s
  | .byteZero => Sys2Proof.Machine.execByteZero s
  | .byteNonzero b => Sys2Proof.Machine.execByteNonzero b s
  | .huntShift x b => Sys2Proof.Machine.execHuntShift x b s
  | .pairFirst b => Sys2Proof.Machine.execPairFirst b s
  | .pairSecond b => Sys2Proof.Machine.execPairSecond b s
  | .violationAbort => Sys2Proof.Machine.execViolationAbort s
  | .bitAccumulate e => Sys2Proof.Machine.execBitAccumulate e s
  | .resync e => Sys2Proof.Machine.execResync e s
  | .byteStore e => Sys2Proof.Machine.execByteStore e s
  | .maxlenComplete e => Sys2Proof.Machine.execMaxlenComplete e s
  | .finalize => Sys2Proof.Machine.execFinalize s

end Sys2Proof.Machine
end

