-- ==== Sys2Proof/WellFormed.lean ====
section
/-! DEFINITION. Which instructions are well formed: those some word of the opcode table stands for. -/

namespace Sys2Proof

/-- The one check the table asks for: BYTE_NONZERO stands for the 255 bytes other than 0x00 (R72). -/
def Instr.wellFormed : Instr → Bool
  | .reset _ => true
  | .idle _ => true
  | .sym0 => true
  | .sym1 => true
  | .byteZero => true
  | .byteNonzero b => b != 0
  | .huntShift _ _ => true
  | .pairFirst _ => true
  | .pairSecond _ => true
  | .violationAbort => true
  | .bitAccumulate _ => true
  | .resync _ => true
  | .byteStore _ => true
  | .maxlenComplete _ => true
  | .finalize => true

end Sys2Proof
end

