-- ==== Sys2Proof/Decode.lean ====
section
/-! DEFINITION. The decoders of the four encoded formats (R71, R72, R74, R75), the encoder, and the opcode
table's fixed bits. Every word of every format is either an instruction or rejected by name. -/

namespace Sys2Proof

/-- Why a word is no instruction. -/
inductive DecodeError where
  /-- The OUTCOME word is none of the five patterns of R75, so no state and symbol give it. -/
  | outcomeNotReachable (o : OutcomeWord)
  deriving DecidableEq, Repr

/-- Format IN (R71): all eight words are defined. -/
def decodeIn (w : InWord) : Instr :=
  if w.getLsbD 2 then .reset (w.extractLsb' 0 2)
  else if w.getLsbD 1 then (if w.getLsbD 0 then .sym1 else .sym0)
  else .idle (w.getLsbD 0)

/-- Format BYTE (R72): BYTE_ZERO is tested first. -/
def decodeByte (b : Byte) : Instr :=
  if b = 0 then .byteZero else .byteNonzero b

/-- Format KEY (R74): `01s` is dispatched as HUNT_SHIFT. -/
def decodeKey (k : KeyWord) : Instr :=
  if k.getLsbD 2 then (if k.getLsbD 1 then .pairSecond (k.getLsbD 0) else .pairFirst (k.getLsbD 0))
  else .huntShift (k.getLsbD 1) (k.getLsbD 0)

/-- Format OUTCOME (R75): the five patterns, every other word rejected. -/
def decodeOutcome (o : OutcomeWord) : Except DecodeError Instr :=
  if o = 0b11000#5 then .ok .violationAbort
  else if o.extractLsb' 0 4 = 0b0000#4 then .ok (.bitAccumulate (o.getLsbD 4))
  else if o.extractLsb' 0 4 = 0b0100#4 then .ok (.resync (o.getLsbD 4))
  else if o.extractLsb' 0 4 = 0b0010#4 then .ok (.byteStore (o.getLsbD 4))
  else if o.extractLsb' 0 4 = 0b0011#4 then .ok (.maxlenComplete (o.getLsbD 4))
  else .error (.outcomeNotReachable o)

/-- The decoder: what a word of a given format stands for. -/
def decode : EncWord → Except DecodeError Instr
  | .inp w => .ok (decodeIn w)
  | .byte b => .ok (decodeByte b)
  | .key k => .ok (decodeKey k)
  | .outcome o => decodeOutcome o
  | .internal => .ok .finalize

/-- The port word seen as a word of its format. -/
def PortWord.toEnc : PortWord → EncWord
  | .inp w => .inp w
  | .byte b => .byte b

/-- What the core does with a port word: both port formats are total (R81). -/
def decodePort : PortWord → Instr
  | .inp w => decodeIn w
  | .byte b => decodeByte b

/-- The `rst` bit of a port word (R71); a byte of the document's stream never resets (R72). -/
def PortWord.rst : PortWord → Bool
  | .inp w => w.getLsbD 2
  | .byte _ => false

/-- The encoder, from the same patterns. -/
def encode : Instr → EncWord
  | .reset x => .inp (0b1#1 ++ x)
  | .idle x => .inp (0b00#2 ++ BitVec.ofBool x)
  | .sym0 => .inp 0b010#3
  | .sym1 => .inp 0b011#3
  | .byteZero => .byte 0x00#8
  | .byteNonzero b => .byte b
  | .huntShift x s => .key (0b0#1 ++ BitVec.ofBool x ++ BitVec.ofBool s)
  | .pairFirst s => .key (0b10#2 ++ BitVec.ofBool s)
  | .pairSecond s => .key (0b11#2 ++ BitVec.ofBool s)
  | .violationAbort => .outcome 0b11000#5
  | .bitAccumulate e => .outcome (BitVec.ofBool e ++ 0b0000#4)
  | .resync e => .outcome (BitVec.ofBool e ++ 0b0100#4)
  | .byteStore e => .outcome (BitVec.ofBool e ++ 0b0010#4)
  | .maxlenComplete e => .outcome (BitVec.ofBool e ++ 0b0011#4)
  | .finalize => .internal

/-- The format of a word. -/
def EncWord.format : EncWord → Format
  | .inp _ => .inp
  | .byte _ => .byte
  | .key _ => .key
  | .outcome _ => .outcome
  | .internal => .internal

/-- A word's bits as the number the opcode table reads (R9: bit 0 is the least significant). -/
def EncWord.bits : EncWord → Nat
  | .inp w => w.toNat
  | .byte b => b.toNat
  | .key k => k.toNat
  | .outcome o => o.toNat
  | .internal => 0

/-- A row of the opcode table: its format and its fixed bits. -/
structure TableRow where
  mnemonic : String
  format : Format
  pattern : Nat
  mask : Nat
  deriving DecidableEq, Repr

/-- The row of the opcode table an instruction belongs to, as the table prints it. -/
def Instr.row : Instr → TableRow
  | .reset _ => ⟨"RESET", .inp, 0b100, 0b100⟩
  | .idle _ => ⟨"IDLE", .inp, 0b000, 0b110⟩
  | .sym0 => ⟨"SYM0", .inp, 0b010, 0b111⟩
  | .sym1 => ⟨"SYM1", .inp, 0b011, 0b111⟩
  | .byteZero => ⟨"BYTE_ZERO", .byte, 0x00, 0xFF⟩
  | .byteNonzero _ => ⟨"BYTE_NONZERO", .byte, 0x00, 0x00⟩
  | .huntShift _ _ => ⟨"HUNT_SHIFT", .key, 0b000, 0b100⟩
  | .pairFirst _ => ⟨"PAIR_FIRST", .key, 0b100, 0b110⟩
  | .pairSecond _ => ⟨"PAIR_SECOND", .key, 0b110, 0b110⟩
  | .violationAbort => ⟨"VIOLATION_ABORT", .outcome, 0b11000, 0b11111⟩
  | .bitAccumulate _ => ⟨"BIT_ACCUMULATE", .outcome, 0b00000, 0b01111⟩
  | .resync _ => ⟨"RESYNC", .outcome, 0b00100, 0b01111⟩
  | .byteStore _ => ⟨"BYTE_STORE", .outcome, 0b00010, 0b01111⟩
  | .maxlenComplete _ => ⟨"MAXLEN_COMPLETE", .outcome, 0b00011, 0b01111⟩
  | .finalize => ⟨"FINALIZE", .internal, 0, 0⟩

/-- Whether a word stands for an instruction. -/
def EncWord.decodes (e : EncWord) : Bool :=
  match decode e with
  | .ok _ => true
  | .error _ => false

/-- The word a bare number of the table's numbering is read as. The table's formats overlap, so a number alone
does not name its row: it is read in the narrowest format in which it is an instruction, the core's own port format
IN first, then OUTCOME, then BYTE. A caller that gives the exact width 4 or 5 means OUTCOME. DESIGN CHOICE
(notes/assumptions/11.md). -/
def tableWord (nbits w : Nat) : Option EncWord :=
  let inp : EncWord := .inp (BitVec.ofNat 3 w)
  let outcome : EncWord := .outcome (BitVec.ofNat 5 w)
  if nbits ≤ 3 then (if w < 8 then some inp else none)
  else if nbits ≤ 5 then (if w < 32 then some outcome else none)
  else if w < 8 then some inp
  else if w < 32 ∧ outcome.decodes = true then some outcome
  else if w < 256 then some (.byte (BitVec.ofNat 8 w))
  else none

/-- The instruction the decoder reads from a number of the table's numbering. -/
def decodeTableWord (nbits w : Nat) : Option Instr :=
  match tableWord nbits w with
  | none => none
  | some e =>
    match decode e with
    | .ok i => some i
    | .error _ => none

end Sys2Proof
end

