-- ==== Sys2Proof/Machine/Fetch.lean ====
section
/-! DEFINITION. Taking the host's next transaction: the configuration it presents (R33, R34), its word's
instruction (R71, R72), and placing a given word so that the next step runs it. -/

namespace Sys2Proof.Machine

/-- What a fetch answers: the instruction to run and the state it runs on, or a refusal. -/
inductive Fetched where
  | run (i : Instr) (s : State)
  | refuse (r : Refusal)
  deriving DecidableEq, Repr

/-- A new transaction begins: no frame is driven in it yet (R80), and it has the next number (R270). -/
def State.beginStep (s : State) : State := { s with frameOut := none, stepNo := s.stepNo + 1 }

/-- The configuration presented with a transaction, put into force. A change needs `rst` (R33, D13) and a
configuration in force must be legal (R34, D15). -/
def State.configure (s : State) (rst : Bool) (presented : Option Config) : Except Refusal State :=
  let c := presented.getD s.cfg
  if ¬ c.Legal then .error .illegalConfig
  else if c ≠ s.cfg ∧ rst = false then .error .configChangeOutsideReset
  else .ok { s with cfg := c }

/-- The next transaction's instruction. With nothing presented the core waits, as in an idle step (R203, R270;
notes/assumptions/3.md). -/
def State.fetch (s : State) : Fetched :=
  match s.input with
  | [] =>
    match s.configure false none with
    | .error r => .refuse r
    | .ok t => .run (.idle false) t.beginStep
  | x :: rest =>
    match { s with input := rest }.configure x.word.rst x.cfg with
    | .error r => .refuse r
    | .ok t => .run (decodePort x.word) t.beginStep

/-- A port word presented before everything still to come, with no change of configuration. -/
def State.present (s : State) (w : PortWord) : State := { s with input := ⟨w, none⟩ :: s.input }

/-- The IN word of a symbol (R71). -/
def symIn (b : Sym) : InWord := 0b01#2 ++ BitVec.ofBool b

/-- The state and symbol a KEY word describes, so that the next step performs its operation (R74). -/
def State.placeKey (s : State) (k : KeyWord) : State :=
  { s with mode := if k.getLsbD 2 then .locked else .hunting, phase := k.getLsbD 1 }.present
    (.inp (symIn (k.getLsbD 0)))

/-- A state and symbol an OUTCOME word describes, so that the next step ends in its outcome (R75). The reference
level gives the low marker bit; a violation presents the same level again; the tolerance, the capacity and the
counters are what the word's bits ask for (notes/assumptions/12.md). -/
def State.placeOutcome (s : State) (o : OutcomeWord) : State :=
  let e := o.getLsbD 4
  let trip := o.getLsbD 3
  let rs := o.getLsbD 2
  let bc := o.getLsbD 1
  let full := o.getLsbD 0
  let ref := !s.cfg.preLog.getLsbD 0
  let cap := if rs then max s.cfg.capacity 3 else if bc && !full then max s.cfg.capacity 2 else s.cfg.capacity
  let tol := if e && !trip then max s.cfg.tolerance 1 else s.cfg.tolerance
  { s with
    mode := .locked
    phase := true
    ref := ref
    acc := (BitVec.ofBool (s.cfg.preLog.getLsbD 1)).setWidth 8
    bitpos := if rs then 1#3 else if bc then 7#3 else 0#3
    count := if rs then 2 else if bc && full then cap - 1 else 0
    viol := if trip then tol else 0
    buf := if rs then Memory.write [] 1 (resyncByte s.cfg) else []
    cfg := { s.cfg with capacity := cap, tolerance := tol } }.present
    (.inp (symIn (if e then ref else !ref)))

/-- A word placed so that the next step performs its operation. FINALIZE has no word and no step of its own
(R170): it is placed as the VIOLATION_ABORT that calls it. -/
def State.place (s : State) : EncWord → State
  | .inp w => s.present (.inp w)
  | .byte b => s.present (.byte b)
  | .key k => s.placeKey k
  | .outcome o => s.placeOutcome o
  | .internal => s.placeOutcome 0b11000#5

/-- A number of the opcode table placed so that the next step performs its operation. -/
def State.placeTableWord (s : State) (nbits w : Nat) : State :=
  match tableWord nbits w with
  | none => s
  | some e => s.place e

end Sys2Proof.Machine
end

