-- ==== Sys2Proof/Machine/Step.lean ====
section
/-! DEFINITION. The machine's step (spec/44_sync_fsm.md R200): one transaction taken and fully processed (R201). -/

namespace Sys2Proof.Machine

/-- One step: the next transaction's instruction, run. -/
def step (s : State) : Host.Outcome State Fault Refusal :=
  match s.fetch with
  | .run i t => exec i t
  | .refuse r => .refused r

/-- `s` with a number of the opcode table placed so that the next step runs it. -/
def State.withFetchWord (s : State) (nbits w : Nat) : State := s.placeTableWord nbits w

end Sys2Proof.Machine
end

