-- ==== Sys2Proof/Machine/Events.lean ====
section
/-! DEFINITION. The event labels of spec/60_exceptions.md R235. They name what a symbol's step did; the core does
not signal them. -/

namespace Sys2Proof.Machine

/-- The labels of R235. -/
inductive Event where
  | lock
  | violTol
  | violAbort
  | resync
  | maxlen
  | crcBad
  deriving DecidableEq, Repr

/-- The label `e` if the condition holds. -/
def eventIf (c : Bool) (e : Event) : List Event := if c then [e] else []

/-- EV_CRC_BAD for a frame driven without the mark. -/
def frameEvents : Option Frame → List Event
  | some f => eventIf (!f.crc16Ok) .crcBad
  | none => []

/-- The labels of the step that takes symbol `b` in state `s` and drives `out`. -/
def symbolEvents (s : State) (b : Sym) (out : Option Frame) : List Event :=
  match s.mode, s.phase with
  | .hunting, _ => eventIf (shiftWindow s.win b == s.cfg.preEnc) .lock
  | .locked, false => []
  | .locked, true =>
    eventIf (flagEq s b && !flagTrip s b) .violTol ++ eventIf (flagTrip s b) .violAbort ++
      eventIf (flagRs s b) .resync ++ eventIf (flagFull s b) .maxlen ++ frameEvents out

end Sys2Proof.Machine
end

