-- ==== Sys2Proof/Machine/Ports.lean ====
section
/-! DEFINITION. The core's outputs in a transaction (R35, R80): `locked`, `frame_valid`, `frame_len`,
`frame_data`, `frame_crc16_ok`. Where R80 gives a signal no value it carries a free value. -/

namespace Sys2Proof.Machine

/-- `frame_valid`. -/
def State.frameValid (s : State) : Bool := s.frameOut.isSome

/-- `frame_len`; unspecified, within its width, when no frame is driven. -/
def State.frameLen (s : State) : Nat :=
  match s.frameOut with
  | some f => f.len
  | none => Config.freeFrameLen s.stepNo % 2 ^ s.cfg.countWidth

/-- `frame_data[8*i+7 : 8*i]`; unspecified where the driven frame has no byte `i`. -/
def State.frameData (s : State) (i : Nat) : Byte :=
  match s.frameOut with
  | some f => f.bytes.getD i (Config.freeFrameData s.stepNo i)
  | none => Config.freeFrameData s.stepNo i

/-- `frame_crc16_ok`; unspecified when no frame is driven. -/
def State.frameCrc16Ok (s : State) : Bool :=
  match s.frameOut with
  | some f => f.crc16Ok
  | none => Config.freeFrameCrc16Ok s.stepNo

end Sys2Proof.Machine
end

