-- ==== Sys2Proof/Machine/Line.lean ====
section
/-! DEFINITION. LINE, the reference text rendering of a frame (spec/43_finalizer_crc.md R183). -/

namespace Sys2Proof.Machine

/-- One lowercase hexadecimal digit. -/
def hexDigit (n : BitVec 4) : Char :=
  ['0', '1', '2', '3', '4', '5', '6', '7', '8', '9', 'a', 'b', 'c', 'd', 'e', 'f'].getD n.toNat '0'

/-- `hex2(b)`: two digits, the leading zero kept. -/
def hex2 (b : Byte) : List Char := [hexDigit (b.extractLsb' 4 4), hexDigit (b.extractLsb' 0 4)]

/-- The bytes' digits, one space between bytes. -/
def hexBytes : List Byte → List Char
  | [] => []
  | [b] => hex2 b
  | b :: c :: bs => hex2 b ++ ' ' :: hexBytes (c :: bs)

/-- The CRC-16 verification marker with its leading space. -/
def crcMark : List Char := [' ', '(', 'C', 'R', 'C', '-', '1', '6', ' ', 'O', 'K', ')']

/-- `LINE(Frame(len, bytes, ok))`. -/
def Frame.line (f : Frame) : List Char :=
  hexBytes f.bytes ++ (if f.crc16Ok then crcMark else []) ++ ['\n']

end Sys2Proof.Machine
end

