-- ==== Sys2Proof/Machine/Run.lean ====
section
/-! DEFINITION. Runs (spec/70_reset_and_hazards.md R270): the frames a run emits, each with the number of its
step, and the state it ends in; no flush at the end. And symbols fed one after another. -/

namespace Sys2Proof.Machine

/-- What a run shows. -/
structure Observation where
  frames : List (Nat × Frame)
  final : Result

/-- The frame driven in the step that led to `s`, with the step's number. -/
def State.emitted (s : State) : List (Nat × Frame) :=
  match s.frameOut with
  | some f => [(s.stepNo, f)]
  | none => []

/-- The observation of `n` steps. -/
def observe : Nat → State → Observation
  | 0, s => ⟨[], .next s⟩
  | n + 1, s =>
    match step s with
    | .next t => ⟨t.emitted ++ (observe n t).frames, (observe n t).final⟩
    | .fault f => ⟨[], .fault f⟩
    | .refused r => ⟨[], .refused r⟩

/-- The run over everything the host has to present. -/
def State.run (s : State) : Observation := observe s.input.length s

/-- The text output of a run: the LINE of every frame in order (R270). -/
def Observation.text (o : Observation) : List Char := o.frames.flatMap (fun p => p.2.line)

/-- The instruction of a symbol word (R71). -/
def symInstr (b : Sym) : Instr := if b then .sym1 else .sym0

/-- Symbols fed one after another, each fully processed before the next (R201). -/
def feed : List Sym → State → Result
  | [], s => .next s
  | b :: bs, s =>
    match exec (symInstr b) s with
    | .next t => feed bs t
    | .fault f => .fault f
    | .refused r => .refused r

end Sys2Proof.Machine
end

