-- ==== Sys2Proof/Machine/Stream.lean ====
section
/-! DEFINITION. The stream notation of spec/30_encoding.md R83: items and the IN words they expand to. -/

namespace Sys2Proof.Machine

/-- The items of R83. -/
inductive Item where
  | s0
  | s1
  | idle
  | rst
  | bit0
  | bit1
  | viol0
  | viol1
  | bits (v n : Nat)
  | byte (x : Byte)
  | pre
  | lpre
  deriving DecidableEq, Repr

/-- The two symbols of a logical bit: 0 is `1 0`, 1 is `0 1` (R83, R126). -/
def bitSyms (b : Bool) : List Sym := [!b, b]

/-- The low `n` bits of a number, most significant first. -/
def bitsOf (v : Nat) : Nat → List Bool
  | 0 => []
  | n + 1 => v.testBit n :: bitsOf v n

/-- The symbols of `n` logical bits of `v`, most significant first. -/
def bitsSyms (v n : Nat) : List Sym := (bitsOf v n).flatMap bitSyms

/-- The sixteen symbols of a byte. -/
def byteSyms (x : Byte) : List Sym := bitsSyms x.toNat 8

/-- The twenty lock symbols, `~PRE_ENC[19] ... ~PRE_ENC[0]` (R77). -/
def preSyms (c : Config) : List Sym := (bitsOf c.preEnc.toNat 20).map (fun b => !b)

/-- The logical preamble as ten pairs. -/
def lpreSyms (c : Config) : List Sym := bitsSyms c.preLog.toNat 10

/-- The IN words an item expands to. -/
def Item.expand (c : Config) : Item → List InWord
  | .s0 => [symIn false]
  | .s1 => [symIn true]
  | .idle => [0b000#3]
  | .rst => [0b100#3]
  | .bit0 => (bitSyms false).map symIn
  | .bit1 => (bitSyms true).map symIn
  | .viol0 => [symIn false, symIn false]
  | .viol1 => [symIn true, symIn true]
  | .bits v n => (bitsSyms v n).map symIn
  | .byte x => (byteSyms x).map symIn
  | .pre => (preSyms c).map symIn
  | .lpre => (lpreSyms c).map symIn

/-- The IN words of a stream. -/
def expandStream (c : Config) (items : List Item) : List InWord := items.flatMap (Item.expand c)

/-- The host about to present a list of IN words. -/
def State.presentWords (s : State) (ws : List InWord) : State :=
  { s with input := ws.map (fun w => ⟨.inp w, none⟩) }

/-- The host about to present the document's byte stream (R72). -/
def State.presentBytes (s : State) (bs : List Byte) : State :=
  { s with input := bs.map (fun b => ⟨.byte b, none⟩) }

end Sys2Proof.Machine
end

