-- ==== Sys2Proof/Safety.lean ====
section
/-! DEFINITION. The invariants of spec/44_sync_fsm.md R206 over the model's state, and the states no observation
tells apart. -/

namespace Sys2Proof.Safety

open Sys2Proof.Machine

/-- Every Decoder State element has its DS_reset value (R31). -/
abbrev Fresh (s : State) : Prop :=
  s.phase = false ∧ s.ref = false ∧ s.acc = 0x00#8 ∧ s.bitpos = 0#3 ∧ s.count = 0 ∧ s.viol = 0 ∧ s.buf = []

/-- R206 (1): while hunting, the Decoder State is in its DS_reset form. -/
abbrev HuntingFresh (s : State) : Prop := s.mode = .hunting → Fresh s

/-- R206 (2), R28, R29: between steps the counters are below their bounds. -/
abbrev CountersInRange (s : State) : Prop := s.count < s.cfg.capacity ∧ s.viol ≤ s.cfg.tolerance

/-- The buffer's cells are in canonical form and list stored bytes only. -/
abbrev BufferOk (s : State) : Prop := s.buf.wf = true ∧ s.buf.below s.count = true

/-- The frame of the buffer's first `n` bytes, as R79 and R176 give it. -/
def heldFrame (s : State) (n : Nat) : Frame :=
  let bytes := (List.range n).map (fun i => s.buf.read i)
  ⟨n, bytes, decide (s.cfg.crc16MinLen ≤ n ∧ crc16 s.cfg.crc16Reflected bytes = 0x0000#16)⟩

/-- R206 (5), R79, R176: a driven frame has 1 to C bytes, and the mark exactly when R176 gives it. -/
def FrameOk (c : Config) (f : Frame) : Prop :=
  1 ≤ f.len ∧ f.len ≤ c.capacity ∧ f.bytes.length = f.len ∧
    (f.crc16Ok = true ↔ c.crc16MinLen ≤ f.len ∧ crc16 c.crc16Reflected f.bytes = 0x0000#16)

/-- The driven frame, if any, is a frame of the configuration in force. -/
def OutputOk (s : State) : Prop := ∀ f, s.frameOut = some f → FrameOk s.cfg f

/-- The invariant of the machine. -/
structure Inv (s : State) : Prop where
  legal : s.cfg.Legal
  huntingFresh : HuntingFresh s
  counters : CountersInRange s
  buffer : BufferOk s
  output : OutputOk s

/-- What no instruction writes: the configuration (R33), what the host still presents, the step's number. -/
abbrev SameEnvironment (s t : State) : Prop := t.cfg = s.cfg ∧ t.input = s.input ∧ t.stepNo = s.stepNo

/-- The symbol an instruction brings to the core, if it brings one (R71, R72). -/
def symbolOf : Instr → Option Sym
  | .reset _ => none
  | .idle _ => none
  | .sym0 => some false
  | .sym1 => some true
  | .byteZero => some false
  | .byteNonzero b => if b = 0x00#8 then none else some true
  | .huntShift _ _ => none
  | .pairFirst _ => none
  | .pairSecond _ => none
  | .violationAbort => none
  | .bitAccumulate _ => none
  | .resync _ => none
  | .byteStore _ => none
  | .maxlenComplete _ => none
  | .finalize => none

/-- What the fetch accepts: the configuration in force after a transaction is legal, and it is a new one only under
`rst` (R33, R34). -/
abbrev ConfigAccepted (s : State) (x : Transaction) : Prop :=
  (x.cfg.getD s.cfg).Legal ∧ (x.cfg.getD s.cfg = s.cfg ∨ x.word.rst = true)

/-- Every transaction of a list is accepted when its turn comes, from the configuration `c` on (R33, R34). -/
def AllAccepted : Config → List Transaction → Prop
  | _, [] => True
  | c, x :: rest =>
    (x.cfg.getD c).Legal ∧ (x.cfg.getD c = c ∨ x.word.rst = true) ∧ AllAccepted (x.cfg.getD c) rest

/-- The frame the rules end at symbol `b` in state `s`: at a second symbol while locked, the stored bytes of an aborted
frame if there are any (R123, R172), the bytes before a marker (R144), or the bytes of a full buffer (R147). -/
def frameEndedBy (s : State) (b : Sym) : Option Frame :=
  if s.mode = .locked ∧ s.phase = true then
    if flagTrip s b = true then (if s.count = 0 then none else some (heldFrame s s.count))
    else if flagRs s b = true then some (heldFrame s (s.count - 1))
    else if flagFull s b = true then
      some (heldFrame { s with buf := s.buf.write s.count (accNext s) } (s.count + 1))
    else none
  else none

/-- The state an accepted transaction's instruction runs on (R80, R270). -/
def stateAtExec (s : State) (x : Transaction) (rest : List Transaction) : State :=
  { s with input := rest, cfg := x.cfg.getD s.cfg, frameOut := none, stepNo := s.stepNo + 1 }

/-- Two states that differ only in what nothing reads (U9, U10, U11): the reference while a first symbol comes
next, the accumulator's bits from before the last byte boundary, the buffer from index `count` on. -/
structure SameToObserver (s t : State) : Prop where
  mode : s.mode = t.mode
  win : s.win = t.win
  phase : s.phase = t.phase
  ref : s.phase = true → s.ref = t.ref
  acc : ∀ i, i < s.bitpos.toNat → s.acc.getLsbD i = t.acc.getLsbD i
  bitpos : s.bitpos = t.bitpos
  count : s.count = t.count
  viol : s.viol = t.viol
  buf : ∀ i, i < s.count → s.buf.read i = t.buf.read i
  cfg : s.cfg = t.cfg
  input : s.input = t.input
  frameOut : s.frameOut = t.frameOut
  stepNo : s.stepNo = t.stepNo

/-- Two answers of a step no observation tells apart. -/
def SameAnswer : Host.Outcome State Fault Refusal → Host.Outcome State Fault Refusal → Prop
  | .next s, .next t => SameToObserver s t
  | .fault f, .fault g => f = g
  | .refused r, .refused q => r = q
  | _, _ => False

end Sys2Proof.Safety
end

