-- ==== Sys2Proof/Certificates/Slice0/Obligations.lean ====
section
/-! DEFINITION. The statements for the provers. Each docstring says which rule of spec/ it formalises. A premise
`s.count ≤ s.cfg.capacity` or `Inv s` rules out states no run reaches (R206); `Inv` is itself a statement. -/

open Sys2Proof Sys2Proof.Machine Sys2Proof.Safety

/-! ### Encodings -/

/-- Every well-formed instruction is what its own word decodes to (R71, R72, R74, R75). -/
def Obligations.DecodeOfEncode : Prop :=
  ∀ i : Instr, i.wellFormed = true → decode (encode i) = .ok i

/-- Every word that decodes is the word of the instruction it decodes to, and that instruction is well formed. -/
def Obligations.EncodeOfDecode : Prop :=
  ∀ (w : EncWord) (i : Instr), decode w = .ok i → encode i = w ∧ i.wellFormed = true

/-- Words written out bit by bit from R71, R72, R74 and R75 decode to the operations those rules give them, and
words R75 does not list are rejected. -/
def Obligations.SpecWordsDecode : Prop :=
  decode (.inp 0b110#3) = .ok (.reset 0b10#2) ∧ decode (.inp 0b001#3) = .ok (.idle true) ∧
  decode (.inp 0b010#3) = .ok .sym0 ∧ decode (.inp 0b011#3) = .ok .sym1 ∧
  decode (.byte 0x00#8) = .ok .byteZero ∧ decode (.byte 0x80#8) = .ok (.byteNonzero 0x80#8) ∧
  decode (.key 0b011#3) = .ok (.huntShift true true) ∧ decode (.key 0b101#3) = .ok (.pairFirst true) ∧
  decode (.key 0b110#3) = .ok (.pairSecond false) ∧ decode (.outcome 0b11000#5) = .ok .violationAbort ∧
  decode (.outcome 0b10000#5) = .ok (.bitAccumulate true) ∧ decode (.outcome 0b00100#5) = .ok (.resync false) ∧
  decode (.outcome 0b10010#5) = .ok (.byteStore true) ∧
  decode (.outcome 0b00011#5) = .ok (.maxlenComplete false) ∧
  decode (.outcome 0b01000#5) = .error (.outcomeNotReachable 0b01000#5) ∧
  decode (.outcome 0b00001#5) = .error (.outcomeNotReachable 0b00001#5)

/-- R75, R148: whatever the state and the symbol, the OUTCOME word is one of the five patterns. -/
def Obligations.OutcomeIsOneOfFive : Prop :=
  ∀ (s : State) (b : Sym), ∃ e : Bool,
    decode (.outcome (outcomeWord s b)) = .ok .violationAbort ∨
    decode (.outcome (outcomeWord s b)) = .ok (.bitAccumulate e) ∨
    decode (.outcome (outcomeWord s b)) = .ok (.resync e) ∨
    decode (.outcome (outcomeWord s b)) = .ok (.byteStore e) ∨
    decode (.outcome (outcomeWord s b)) = .ok (.maxlenComplete e)

/-! ### The step around an instruction -/

/-- R200, R201: when the next transaction's word decodes to an instruction and its configuration is accepted, the
step is exec of that instruction, on the state with the transaction taken. -/
def Obligations.StepRunsDecodedInstruction : Prop :=
  ∀ (s : State) (x : Transaction) (rest : List Transaction) (i : Instr),
    s.input = x :: rest → decode x.word.toEnc = .ok i → i.wellFormed = true → ConfigAccepted s x →
    step s = exec i (stateAtExec s x rest)

/-- The model's choice for R270 (notes/assumptions/3.md): with nothing presented a step holds the core's state. -/
def Obligations.StepWithNothingPresentedHolds : Prop :=
  ∀ s : State, s.input = [] → s.cfg.Legal →
    step s = .next { s with frameOut := none, stepNo := s.stepNo + 1 }

/-- R33, R34: a transaction whose configuration is illegal, or new without `rst`, is refused by name. -/
def Obligations.BadConfigurationIsRefused : Prop :=
  ∀ (s : State) (x : Transaction) (rest : List Transaction), s.input = x :: rest →
    (¬ (x.cfg.getD s.cfg).Legal → step s = .refused .illegalConfig) ∧
    ((x.cfg.getD s.cfg).Legal → x.cfg.getD s.cfg ≠ s.cfg → x.word.rst = false →
      step s = .refused .configChangeOutsideReset)

/-- R33, R7: no instruction writes the configuration; nor what the host still presents, nor the step's number. -/
def Obligations.NoInstructionWritesConfig : Prop :=
  ∀ (i : Instr) (s t : State), exec i s = .next t → SameEnvironment s t

/-! ### RESET and IDLE -/

/-- R40, R260: an IN word `1xx` is RESET; after it every element has its reset value, whatever the word's two ignored
bits (R236), and no frame is emitted. -/
def Obligations.ResetGivesInitialState : Prop :=
  ∀ (x : BitVec 2) (s : State), decode (.inp (0b1#1 ++ x)) = .ok (.reset x) ∧ ∃ t, exec (.reset x) s = .next t ∧
    t.mode = .hunting ∧ t.win = s.cfg.windowInit ∧ Fresh t ∧ t.isLocked = false ∧
    (∀ a, t.buf.read a = 0x00#8) ∧ t.frameOut = s.frameOut ∧ SameEnvironment s t

/-- R203: an IN word `00x` is IDLE; it changes no state element and emits nothing; the step only takes it. -/
def Obligations.IdleChangesNothing : Prop :=
  ∀ (x : Bool) (s : State), exec (.idle x) s = .next s ∧
    ∀ rest : List Transaction, s.cfg.Legal → s.input = ⟨.inp (0b00#2 ++ BitVec.ofBool x), none⟩ :: rest →
      step s = .next { s with input := rest, frameOut := none, stepNo := s.stepNo + 1 }

/-! ### Dispatch -/

/-- R74, R200: a symbol performs the operation its KEY word decodes to. -/
def Obligations.SymbolRunsItsKey : Prop :=
  ∀ (i k : Instr) (b : Sym) (s : State), symbolOf i = some b → decode (.key (keyWord s b)) = .ok k →
    exec i s = exec k s

/-- R75, R122, R140: a second symbol, run by the pseudocode of PAIR_SECOND and ASSEMBLE, does exactly what the
outcome its OUTCOME word decodes to does. -/
def Obligations.SecondSymbolRunsItsOutcome : Prop :=
  ∀ (s : State) (b : Sym) (i : Instr), s.count ≤ s.cfg.capacity →
    decode (.outcome (outcomeWord s b)) = .ok i → exec (.pairSecond b) s = exec i s

/-- R72, R73: an input byte does what its IN word does, and no two non-zero bytes differ to the core. -/
def Obligations.BytesActAsTheirSymbols : Prop :=
  (∀ (b : Byte) (s : State), exec (decodeByte b) s = exec (decodeIn (byteToIn b)) s) ∧
  (∀ (b c : Byte) (s : State), b ≠ 0x00#8 → c ≠ 0x00#8 → exec (.byteNonzero b) s = exec (.byteNonzero c) s)

/-- R22, R107: a symbol while hunting shifts its inverted level into the window and, short of a match, writes
nothing else. Completion of SYM0, SYM1, BYTE_ZERO and BYTE_NONZERO while hunting. -/
def Obligations.SymbolWhileHunting : Prop :=
  ∀ (i : Instr) (b : Sym) (s : State), symbolOf i = some b → s.mode = .hunting →
    ∃ t, exec i s = .next t ∧ SameEnvironment s t ∧ t.frameOut = s.frameOut ∧
      (s.win.extractLsb' 0 19 ++ BitVec.ofBool (!b) ≠ s.cfg.preEnc →
        t = { s with win := s.win.extractLsb' 0 19 ++ BitVec.ofBool (!b) }) ∧
      (s.win.extractLsb' 0 19 ++ BitVec.ofBool (!b) = s.cfg.preEnc → t.mode = .locked ∧ Fresh t)

/-- R121: a symbol that is the first of a pair has the key `10s`, whatever its level and the last one's (R129), and
PAIR_FIRST caches it and changes nothing else. Completion of SYM0, SYM1, BYTE_ZERO and BYTE_NONZERO at a first symbol. -/
def Obligations.SymbolFirstOfPair : Prop :=
  ∀ (i : Instr) (b : Sym) (s : State), symbolOf i = some b → s.mode = .locked → s.phase = false →
    keyWord s b = 0b10#2 ++ BitVec.ofBool b ∧ decode (.key (keyWord s b)) = .ok (.pairFirst b) ∧
      exec (.pairFirst b) s = .next { s with ref := b, phase := true } ∧
      exec i s = .next { s with ref := b, phase := true }

/-! ### Preamble Correlator -/

/-- R102, R103, R104: HUNT_SHIFT's window is `{win[18:0], ~s}`; it locks exactly when that equals PRE_ENC. The rules
give it in HUNTING; that it does the same from any state is the model's choice (notes/assumptions/10.md). -/
def Obligations.HuntShiftLocksOnExactMatch : Prop :=
  ∀ (x : Bool) (b : Sym) (s : State), ∃ t, exec (.huntShift x b) s = .next t ∧
    SameEnvironment s t ∧ t.frameOut = s.frameOut ∧
    (s.win.extractLsb' 0 19 ++ BitVec.ofBool (!b) = s.cfg.preEnc →
      t.mode = .locked ∧ Fresh t ∧ (∀ a, t.buf.read a = 0x00#8) ∧
        t.win = if s.cfg.windowClearOnLock then 0x00000#20 else s.cfg.preEnc) ∧
    (s.win.extractLsb' 0 19 ++ BitVec.ofBool (!b) ≠ s.cfg.preEnc →
      t = { s with win := s.win.extractLsb' 0 19 ++ BitVec.ofBool (!b) })

/-- R108, R77: if the twenty lock symbols are all presented while hunting, the twentieth locks, whatever the window
held before. -/
def Obligations.PreambleLocks : Prop :=
  ∀ s : State, s.mode = .hunting →
    (∀ k < 20, ∃ u, feed ((preSyms s.cfg).take k) s = .next u ∧ u.mode = .hunting) →
    ∃ t, feed (preSyms s.cfg) s = .next t ∧ t.mode = .locked ∧ Fresh t

/-- R105: from an all-zero window, and PRE_ENC[19] = 1, no lock is possible before the twentieth symbol. -/
def Obligations.NoLockBeforeTwentySymbols : Prop :=
  ∀ (s : State) (bs : List Sym), s.mode = .hunting → s.win = 0x00000#20 → s.cfg.preEnc.getLsbD 19 = true →
    bs.length < 20 → ∃ t, feed bs s = .next t ∧ t.mode = .hunting

/-- R105: with PRE_ENC = 0xAAA66 and the window still holding it, the last 18 lock symbols lock, and no other
symbols lock before the twentieth. -/
def Obligations.RelockAfterEighteenSymbols : Prop :=
  ∀ s : State, s.mode = .hunting → s.cfg.preEnc = 0xAAA66#20 → s.win = 0xAAA66#20 →
    (∃ t, feed ((preSyms s.cfg).drop 2) s = .next t ∧ t.mode = .locked) ∧
    (∀ bs : List Sym, bs.length < 20 → bs.take 18 ≠ (preSyms s.cfg).drop 2 →
      ∃ t, feed bs s = .next t ∧ t.mode = .hunting)

/-- R22: while LOCKED the window is neither read nor written by a symbol. -/
def Obligations.WindowUntouchedWhileLocked : Prop :=
  ∀ (i : Instr) (b : Sym) (s t : State) (w : Window), symbolOf i = some b → s.mode = .locked →
    exec i s = .next t → t.win = s.win ∧ exec i { s with win := w } = .next { t with win := w }

/-- R206 (6): a step changes the window only in HUNTING or with `rst`. -/
def Obligations.WindowChangesOnlyHuntingOrReset : Prop :=
  ∀ s t : State, step s = .next t → t.win ≠ s.win →
    s.mode = .hunting ∨ ∃ x rest, s.input = x :: rest ∧ x.word.rst = true

/-! ### Manchester Bit Decoder -/

/-- PAIR_FIRST on its own, from any state (R121; notes/assumptions/10.md). -/
def Obligations.PairFirstCaches : Prop :=
  ∀ (b : Sym) (s : State), exec (.pairFirst b) s = .next { s with ref := b, phase := true }

/-- R123: a violation beyond tolerance has the outcome `11000`, finalizes the frame and returns to HUNTING; the pair
gives no bit. -/
def Obligations.ViolationBeyondToleranceEndsFrame : Prop :=
  ∀ s : State, s.count ≤ s.cfg.capacity → s.viol + 1 > s.cfg.tolerance →
    outcomeWord s s.ref = 0b11000#5 ∧ ∃ t, exec (.pairSecond s.ref) s = .next t ∧ t.mode = .hunting ∧ Fresh t ∧ t.win = s.win ∧
      SameEnvironment s t ∧
      t.frameOut = if s.count = 0 then s.frameOut else some (heldFrame s s.count)

/-- R123, R231: the outcome VIOLATION_ABORT on its own completes and clears every buffered byte. -/
def Obligations.ViolationAbortResult : Prop :=
  ∀ s : State, s.count ≤ s.cfg.capacity →
    ∃ t, exec .violationAbort s = .next t ∧ t.mode = .hunting ∧ Fresh t ∧ (∀ a, t.buf.read a = 0x00#8) ∧
      t.win = s.win ∧ SameEnvironment s t ∧
      t.frameOut = if s.count = 0 then s.frameOut else some (heldFrame s s.count)

/-- R124: a tolerated violation does what a valid pair with the same reference does, and counts itself. -/
def Obligations.ToleratedViolationDecodesFromReference : Prop :=
  ∀ s : State, s.viol + 1 ≤ s.cfg.tolerance →
    exec (.pairSecond s.ref) s = exec (.pairSecond (!s.ref)) { s with viol := s.viol + 1 }

/-- R122, R126: away from a byte boundary and the marker position, a valid pair shifts its second level in. -/
def Obligations.ValidPairGivesSecondLevel : Prop :=
  ∀ (b : Sym) (s : State), b ≠ s.ref → s.bitpos ≠ 7#3 → (s.bitpos = 1#3 → s.count < 2) →
    exec (.pairSecond b) s = .next { s with
      phase := false, acc := s.acc.extractLsb' 0 7 ++ BitVec.ofBool b, bitpos := s.bitpos + 1 }

/-! ### Frame Assembler -/

/-- R141, R142: BIT_ACCUMULATE shifts `~ref` in and counts it modulo 8; every buffered byte reads as before. -/
def Obligations.BitAccumulateResult : Prop :=
  ∀ (e : Bool) (s : State), ∃ t, exec (.bitAccumulate e) s = .next t ∧
    t.acc = s.acc.extractLsb' 0 7 ++ BitVec.ofBool (!s.ref) ∧
    t.bitpos.toNat = (s.bitpos.toNat + 1) % 8 ∧ t.phase = false ∧ t.viol = s.viol + e.toNat ∧
    t.mode = s.mode ∧ t.win = s.win ∧ t.ref = s.ref ∧ t.count = s.count ∧ t.frameOut = s.frameOut ∧
    SameEnvironment s t ∧ ∀ a, t.buf.read a = s.buf.read a

/-- R145, R146: BYTE_STORE puts the byte at index `count` and adds one to the count; every other byte reads as
before, and the accumulator keeps the byte. -/
def Obligations.ByteStoreResult : Prop :=
  ∀ (e : Bool) (s : State), s.count < s.cfg.capacity → ∃ t, exec (.byteStore e) s = .next t ∧
    t.buf.read s.count = s.acc.extractLsb' 0 7 ++ BitVec.ofBool (!s.ref) ∧
    (∀ a, a ≠ s.count → t.buf.read a = s.buf.read a) ∧ t.count = s.count + 1 ∧
    t.acc = s.acc.extractLsb' 0 7 ++ BitVec.ofBool (!s.ref) ∧ t.bitpos = s.bitpos + 1 ∧ t.phase = false ∧
    t.viol = s.viol + e.toNat ∧ t.mode = s.mode ∧ t.win = s.win ∧ t.ref = s.ref ∧
    t.frameOut = s.frameOut ∧ SameEnvironment s t

/-- Where the rules give no effect because no state reaches there (R53, U14, R143), the outcomes run on their own
have the model's faults (notes/assumptions/9.md), and a split at a count of 1 has no frame to emit
(notes/assumptions/10.md). -/
def Obligations.OutcomesOutsideTheRules : Prop :=
  ∀ (e : Bool) (s : State),
    (s.cfg.capacity ≤ s.count → exec (.byteStore e) s = .fault (.bufferIndex s.count) ∧
      exec (.maxlenComplete e) s = .fault (.bufferIndex s.count)) ∧
    (s.cfg.capacity < s.count → exec .finalize s = .fault (.bufferIndex s.cfg.capacity) ∧
      exec .violationAbort s = .fault (.bufferIndex s.cfg.capacity)) ∧
    (s.count = 0 → exec (.resync e) s = .fault .countUnderflow) ∧
    (s.count = 1 → ∃ t, exec (.resync e) s = .next t ∧ t.mode = s.mode ∧ Fresh t ∧ t.win = s.win ∧
      t.frameOut = s.frameOut ∧ SameEnvironment s t)

/-- R147: MAXLEN_COMPLETE stores the byte, emits all `count + 1` bytes and returns to HUNTING. -/
def Obligations.MaxlenCompleteResult : Prop :=
  ∀ (e : Bool) (s : State), s.count < s.cfg.capacity → ∃ t f, exec (.maxlenComplete e) s = .next t ∧
    t.mode = .hunting ∧ Fresh t ∧ (∀ a, t.buf.read a = 0x00#8) ∧ t.win = s.win ∧ SameEnvironment s t ∧
    t.frameOut = some f ∧ f.len = s.count + 1 ∧
    f.bytes = (List.range s.count).map (fun a => s.buf.read a) ++
      [s.acc.extractLsb' 0 7 ++ BitVec.ofBool (!s.ref)] ∧
    (f.crc16Ok = true ↔ s.cfg.crc16MinLen ≤ f.len ∧ crc16 s.cfg.crc16Reflected f.bytes = 0x0000#16)

/-- R144: RESYNC drops the last byte, emits what is left and stays in its mode with a fresh Decoder State. -/
def Obligations.ResyncResult : Prop :=
  ∀ (e : Bool) (s : State), 2 ≤ s.count → s.count ≤ s.cfg.capacity →
    ∃ t, exec (.resync e) s = .next t ∧ t.mode = s.mode ∧ Fresh t ∧ (∀ a, t.buf.read a = 0x00#8) ∧
      t.win = s.win ∧ SameEnvironment s t ∧ t.frameOut = some (heldFrame s (s.count - 1))

/-- R143: a decoded bit, of a valid pair or a tolerated violation, splits the frame exactly when it is the second of
its byte, at least two bytes are stored, the last is PRE_LOG[9:2] and the two bits are PRE_LOG[1:0]. -/
def Obligations.MarkerConditionDecidesSplit : Prop :=
  ∀ (b : Sym) (s : State), ¬ (b = s.ref ∧ s.viol + 1 > s.cfg.tolerance) → s.count ≤ s.cfg.capacity →
    let hit := s.bitpos = 1#3 ∧ 2 ≤ s.count ∧ s.buf.read (s.count - 1) = s.cfg.preLog.extractLsb' 2 8 ∧
      s.acc.getLsbD 0 = s.cfg.preLog.getLsbD 1 ∧ (!s.ref) = s.cfg.preLog.getLsbD 0
    (hit → ∃ t, exec (.pairSecond b) s = .next t ∧ t.mode = s.mode ∧ Fresh t ∧
      t.frameOut = some (heldFrame s (s.count - 1))) ∧
    (¬ hit → s.bitpos ≠ 7#3 → exec (.pairSecond b) s = .next { s with
      phase := false, viol := s.viol + (b == s.ref).toNat,
      acc := s.acc.extractLsb' 0 7 ++ BitVec.ofBool (!s.ref), bitpos := s.bitpos + 1 }) ∧
    (s.bitpos = 7#3 → ∀ e, decode (.outcome (outcomeWord s b)) ≠ .ok (.resync e))

/-- R151: the byte that makes `count = C` finalizes and sets HUNTING; one that makes `count < C` does neither. -/
def Obligations.CapacityDecidesCompletion : Prop :=
  ∀ (b : Sym) (s : State), ¬ (b = s.ref ∧ s.viol + 1 > s.cfg.tolerance) → s.bitpos = 7#3 →
    s.count < s.cfg.capacity → ∃ t, exec (.pairSecond b) s = .next t ∧
      (s.count + 1 = s.cfg.capacity → t.mode = .hunting ∧ Fresh t ∧
        ∃ f, t.frameOut = some f ∧ f.len = s.cfg.capacity) ∧
      (s.count + 1 < s.cfg.capacity → t.mode = s.mode ∧ t.frameOut = s.frameOut ∧ t.count = s.count + 1)

/-- R153: with C ≤ 2 no state the invariant allows reaches RESYNC; with C = 3 one does, whatever its first byte,
and emits that byte. -/
def Obligations.NoResyncInTwoBytes : Prop :=
  (∀ (s : State) (b : Sym) (e : Bool), Inv s → s.cfg.capacity ≤ 2 →
    decode (.outcome (outcomeWord s b)) ≠ .ok (.resync e)) ∧
  ∀ x : Byte, ∃ (s t : State) (b : Sym) (f : Frame), Inv s ∧ s.mode = .locked ∧ s.phase = true ∧
    s.cfg.capacity = 3 ∧ s.count = 2 ∧ s.buf.read 0 = x ∧ s.buf.read 1 = s.cfg.preLog.extractLsb' 2 8 ∧
    decode (.outcome (outcomeWord s b)) = .ok (.resync false) ∧ exec (.pairSecond b) s = .next t ∧
    t.frameOut = some f ∧ f.bytes = [x]

/-- R206 (4): a decoded bit that ends no frame adds one to `8 * count + bitpos`. -/
def Obligations.BitsOfFrameAreCounted : Prop :=
  ∀ (s t : State) (b : Sym) (i : Instr), s.count ≤ s.cfg.capacity → exec (.pairSecond b) s = .next t →
    decode (.outcome (outcomeWord s b)) = .ok i → (∃ e, i = .bitAccumulate e ∨ i = .byteStore e) →
    8 * t.count + t.bitpos.toNat = 8 * s.count + s.bitpos.toNat + 1

/-- R54, R59, R83: the sixteen symbols of a byte, from a byte boundary and with no marker, store that byte, first
bit in bit 7, whatever the accumulator held. -/
def Obligations.SixteenSymbolsStoreTheirByte : Prop :=
  ∀ (s : State) (x : Byte), s.mode = .locked → s.phase = false → s.bitpos = 0#3 →
    s.count + 1 < s.cfg.capacity →
    ¬ (2 ≤ s.count ∧ s.buf.read (s.count - 1) = s.cfg.preLog.extractLsb' 2 8 ∧
      x.extractLsb' 6 2 = s.cfg.preLog.extractLsb' 0 2) →
    ∃ t, feed (byteSyms x) s = .next t ∧ t.mode = .locked ∧ t.phase = false ∧ t.bitpos = 0#3 ∧
      t.count = s.count + 1 ∧ t.buf.read s.count = x ∧
      (∀ a, a ≠ s.count → t.buf.read a = s.buf.read a) ∧ t.acc = x ∧ t.viol = s.viol ∧ t.win = s.win ∧
      t.frameOut = s.frameOut ∧ SameEnvironment s t

/-- R149: a byte whose top two bits follow a stored marker byte splits the frame there: the bytes before the marker
are emitted and the byte's other six bits begin the new frame. -/
def Obligations.MarkerInDataSplitsFrame : Prop :=
  ∀ (s : State) (x : Byte), s.mode = .locked → s.phase = false → s.bitpos = 0#3 →
    2 ≤ s.count → s.count ≤ s.cfg.capacity → s.buf.read (s.count - 1) = s.cfg.preLog.extractLsb' 2 8 →
    x.extractLsb' 6 2 = s.cfg.preLog.extractLsb' 0 2 →
    ∃ t, feed (byteSyms x) s = .next t ∧ t.mode = .locked ∧ t.phase = false ∧ t.bitpos = 6#3 ∧
      t.count = 0 ∧ t.viol = 0 ∧ t.acc = (x.extractLsb' 0 6).setWidth 8 ∧ t.win = s.win ∧
      t.frameOut = some (heldFrame s (s.count - 1)) ∧ SameEnvironment s t

/-! ### Frame Finalizer and CRC-16 -/

/-- R171, R172: FINALIZE emits the buffer's bytes in order with their verdict, or nothing when there are none, and
resets the Decoder State in every case. -/
def Obligations.FinalizeResult : Prop :=
  ∀ s : State, s.count ≤ s.cfg.capacity →
    ∃ t, exec .finalize s = .next t ∧ Fresh t ∧ (∀ a, t.buf.read a = 0x00#8) ∧
      t.mode = s.mode ∧ t.win = s.win ∧ SameEnvironment s t ∧
      t.frameOut = if s.count = 0 then s.frameOut else some (heldFrame s s.count)

/-- R173: FINALIZE writes only the Decoder State and the frame output; it reads no Decoder State element but `count`
and `buf`, neither `mode` nor `win`, and no configuration field but C, CRC16_MIN_LEN and CRC16_REFLECTED. -/
def Obligations.FinalizeReadsOnlyCountAndBuffer : Prop :=
  ∀ (s t : State) (m : Mode) (w : Window) (p : Bool) (r : Sym) (a : Byte) (k : BitVec 3) (v : Nat) (c : Config),
    c.capacity = s.cfg.capacity → c.crc16MinLen = s.cfg.crc16MinLen → c.crc16Reflected = s.cfg.crc16Reflected →
    exec .finalize s = .next t →
    t.mode = s.mode ∧ t.win = s.win ∧ SameEnvironment s t ∧
    exec .finalize { s with
        mode := m, win := w, phase := p, ref := r, acc := a, bitpos := k, viol := v, cfg := c } =
      .next { t with mode := m, win := w, cfg := c }

/-- R176: a frame a step emits carries the mark exactly when it has CRC16_MIN_LEN bytes or more and its
CRC-16 is zero; and its length is its number of bytes. -/
def Obligations.MarkExactlyOnZeroResidue : Prop :=
  ∀ (s t : State) (f : Frame), step s = .next t → t.frameOut = some f →
    f.len = f.bytes.length ∧
    (f.crc16Ok = true ↔ t.cfg.crc16MinLen ≤ f.len ∧ crc16 t.cfg.crc16Reflected f.bytes = 0x0000#16)

/-- R177, R56: two bytes appended to a message give residue zero exactly when they are its CRC-16, high byte first
under the non-reflected update and low byte first under the reflected one. -/
def Obligations.AppendedCrcGivesZeroResidue : Prop :=
  ∀ (refl : Bool) (bytes : List Byte) (a b : Byte),
    crc16 refl (bytes ++ [a, b]) = 0x0000#16 ↔
      if refl then a = (crc16 refl bytes).extractLsb' 0 8 ∧ b = (crc16 refl bytes).extractLsb' 8 8
      else a = (crc16 refl bytes).extractLsb' 8 8 ∧ b = (crc16 refl bytes).extractLsb' 0 8

/-- R175: a realisation that looks up one table entry per byte gives the register of the loop. -/
def Obligations.TableDrivenCrcAgrees : Prop :=
  ∀ (r : BitVec 16) (b : Byte),
    crcByte false r b = (r <<< 8) ^^^ crcByte false 0x0000#16 (r.extractLsb' 8 8 ^^^ b) ∧
    crcByte true r b = (r >>> 8) ^^^ crcByte true 0x0000#16 (r.extractLsb' 0 8 ^^^ b)

/-! ### The whole machine -/

/-- R152: no step from a state of the invariant emits a frame longer than the buffer, nor an empty one. -/
def Obligations.EmittedFrameFitsBuffer : Prop :=
  ∀ (s t : State) (f : Frame), Inv s → step s = .next t → t.frameOut = some f →
    1 ≤ f.len ∧ f.len ≤ t.cfg.capacity ∧ f.bytes.length = f.len

/-- R170: a step emits a frame only when it takes the second symbol of a pair while LOCKED and the outcome is
VIOLATION_ABORT, RESYNC or MAXLEN_COMPLETE. -/
def Obligations.FramesComeFromThreeOutcomes : Prop :=
  ∀ (s t : State) (f : Frame), Inv s → step s = .next t → t.frameOut = some f →
    s.mode = .locked ∧ s.phase = true ∧ ∃ x rest b i e, s.input = x :: rest ∧
      symbolOf (decodePort x.word) = some b ∧ decode (.outcome (outcomeWord s b)) = .ok i ∧
      (i = .violationAbort ∨ i = .resync e ∨ i = .maxlenComplete e)

/-- R21, R204: a step enters LOCKED only by a symbol that completes the preamble, and leaves it only by `rst`,
VIOLATION_ABORT or MAXLEN_COMPLETE. -/
def Obligations.ModeChangesOnlyAsTabled : Prop :=
  ∀ s t : State, Inv s → step s = .next t →
    (s.mode = .hunting → t.mode = .locked → Fresh t ∧ ∃ x rest b, s.input = x :: rest ∧
      symbolOf (decodePort x.word) = some b ∧
      s.win.extractLsb' 0 19 ++ BitVec.ofBool (!b) = s.cfg.preEnc) ∧
    (s.mode = .locked → t.mode = .hunting → ∃ x rest, s.input = x :: rest ∧
      (x.word.rst = true ∨ ∃ b i e, s.phase = true ∧ symbolOf (decodePort x.word) = some b ∧
        decode (.outcome (outcomeWord s b)) = .ok i ∧ (i = .violationAbort ∨ i = .maxlenComplete e)))

/-- R236: of EV_VIOL_ABORT, EV_RESYNC and EV_MAXLEN one step reports at most one. -/
def Obligations.FrameEndingEventsExclude : Prop :=
  ∀ (s : State) (b : Sym) (out : Option Frame),
    ((symbolEvents s b out).filter (fun e => e == .violAbort || e == .resync || e == .maxlen)).length ≤ 1

/-- R40, R206: the reset state is that of R40 and has the invariant. Its configuration is the reference one
(notes/assumptions/13.md). -/
def Obligations.ResetStateHasInvariant : Prop :=
  State.reset.mode = .hunting ∧ State.reset.win = 0x00000#20 ∧ Fresh State.reset ∧
    State.reset.frameOut = none ∧ State.reset.cfg = Config.reference ∧ Inv State.reset

/-- R206: every step keeps the invariant. -/
def Obligations.StepKeepsInvariant : Prop :=
  ∀ s t : State, Inv s → step s = .next t → Inv t

/-- R230, R271: from a state of the invariant every step completes; only a configuration the spec has the model
refuse stops it. -/
def Obligations.EveryStepCompletes : Prop :=
  ∀ s : State, Inv s → (∀ x rest, s.input = x :: rest → ConfigAccepted s x) → ∃ t, step s = .next t

/-- R51, R53: every instruction keeps the buffer's cells canonical. -/
def Obligations.InstructionsKeepBufferCanonical : Prop :=
  ∀ (i : Instr) (s t : State), exec i s = .next t → s.buf.wf = true → t.buf.wf = true

/-- R25, R26, R30, R146: the reference while a first symbol comes next, the accumulator's bits from before the last
byte boundary and the buffer from index `count` on are never observed. -/
def Obligations.UnreadStateIsUnobservable : Prop :=
  ∀ s t : State, SameToObserver s t → SameAnswer (step s) (step t)

/-- R271, R201, R270: from a state of the invariant whose transactions are all accepted, a run takes exactly one step
per transaction and ends with none left; it emits a frame in the step of the very symbol that ends it, that frame, and
no other: nothing is pending between steps, and the end of the run emits nothing. -/
def Obligations.RunTakesEveryTransaction : Prop :=
  ∀ s : State, Inv s → AllAccepted s.cfg s.input →
    (∃ t, s.run.final = .next t ∧ t.input = [] ∧ t.stepNo = s.stepNo + s.input.length ∧ Inv t) ∧
    ∀ (k : Nat) (f : Frame), (k, f) ∈ s.run.frames ↔
      ∃ j u x rest b, j < s.input.length ∧ k = s.stepNo + j + 1 ∧ (observe j s).final = .next u ∧
        u.input = x :: rest ∧ symbolOf (decodePort x.word) = some b ∧ frameEndedBy u b = some f

/-- R270: a run that ends inside a frame emits nothing of it and keeps it. From a locked state of the invariant, with
all transactions accepted, none a reset, and every second symbol only accumulating or storing, the run emits no frame
and ends LOCKED with every stored byte still stored. -/
def Obligations.PartialFrameIsKeptNotEmitted : Prop :=
  ∀ s : State, Inv s → s.mode = .locked → AllAccepted s.cfg s.input → (∀ x ∈ s.input, x.word.rst = false) →
    (∀ j u x rest b, j < s.input.length → (observe j s).final = .next u → u.input = x :: rest →
      symbolOf (decodePort x.word) = some b → u.phase = true →
      ∃ e, decode (.outcome (outcomeWord u b)) = .ok (.bitAccumulate e) ∨
        decode (.outcome (outcomeWord u b)) = .ok (.byteStore e)) →
    s.run.frames = [] ∧ ∃ t, s.run.final = .next t ∧ t.input = [] ∧ t.mode = .locked ∧ s.count ≤ t.count ∧
      8 * s.count + s.bitpos.toNat ≤ 8 * t.count + t.bitpos.toNat ∧
      ∀ a, a < s.count → t.buf.read a = s.buf.read a

/-! ### Outputs -/

/-- R80, R35: a driven frame stands on the frame outputs; the length output stays within its width whatever it
carries. No value of an output that R80 leaves open is used. -/
def Obligations.PortsDriveTheFrame : Prop :=
  ∀ s : State, Inv s → (s.isLocked = true ↔ s.mode = .locked) ∧ (s.frameValid = true ↔ s.frameOut ≠ none) ∧
    s.frameLen < 2 ^ s.cfg.countWidth ∧
    ∀ f, s.frameOut = some f → s.frameLen = f.len ∧ s.frameCrc16Ok = f.crc16Ok ∧
      ∀ i, i < f.len → some (s.frameData i) = f.bytes[i]?

/-- R183: the LINE rendering of a non-empty frame determines its bytes and its mark. -/
def Obligations.LineDeterminesFrame : Prop :=
  ∀ f g : Frame, f.bytes ≠ [] → g.bytes ≠ [] → f.line = g.line → f.bytes = g.bytes ∧ f.crc16Ok = g.crc16Ok
end

