-- ==== Sys2Proof/Laws/Crc.lean ====
section
/-! SUPPORT. The CRC-16 register: its update is linear and loses nothing, and a run over two sequences is a run over
the first and then the second (R175). -/

namespace Sys2Proof.Machine

/-- The left update as a shift and a conditional subtraction of the polynomial. -/
theorem crcShiftLeft_eq (x : BitVec 16) :
    crcShiftLeft x = (x <<< 1) ^^^ (if x.getLsbD 15 then 0x1021#16 else 0x0000#16) := by
  unfold crcShiftLeft; split <;> simp

/-- The right update as a shift and a conditional subtraction of the polynomial. -/
theorem crcShiftRight_eq (x : BitVec 16) :
    crcShiftRight x = (x >>> 1) ^^^ (if x.getLsbD 0 then 0x8408#16 else 0x0000#16) := by
  unfold crcShiftRight; split <;> simp

theorem xor_left_comm {n : Nat} (a b c : BitVec n) : a ^^^ (b ^^^ c) = b ^^^ (a ^^^ c) := by
  rw [← BitVec.xor_assoc, BitVec.xor_comm a, BitVec.xor_assoc]

theorem crcShiftLeft_xor (x y : BitVec 16) : crcShiftLeft (x ^^^ y) = crcShiftLeft x ^^^ crcShiftLeft y := by
  rw [crcShiftLeft_eq, crcShiftLeft_eq, crcShiftLeft_eq, BitVec.getLsbD_xor, BitVec.shiftLeft_xor_distrib]
  cases x.getLsbD 15 <;> cases y.getLsbD 15 <;> simp [BitVec.xor_assoc, BitVec.xor_comm, xor_left_comm]

theorem crcShiftRight_xor (x y : BitVec 16) : crcShiftRight (x ^^^ y) = crcShiftRight x ^^^ crcShiftRight y := by
  rw [crcShiftRight_eq, crcShiftRight_eq, crcShiftRight_eq, BitVec.getLsbD_xor, BitVec.ushiftRight_xor_distrib]
  cases x.getLsbD 0 <;> cases y.getLsbD 0 <;> simp [BitVec.xor_assoc, BitVec.xor_comm, xor_left_comm]

theorem iterate_xor (f : BitVec 16 → BitVec 16) (hf : ∀ x y, f (x ^^^ y) = f x ^^^ f y) (n : Nat) (x y : BitVec 16) :
    iterate f n (x ^^^ y) = iterate f n x ^^^ iterate f n y := by
  induction n generalizing x y with
  | zero => rfl
  | succ n ih => simp only [iterate, hf, ih]

/-- The left update's kernel is trivial: its low bit is the bit shifted out. -/
theorem crcShiftLeft_inj (x y : BitVec 16) (h : crcShiftLeft x = crcShiftLeft y) : x = y := by
  have low (z : BitVec 16) : (crcShiftLeft z).getLsbD 0 = z.getLsbD 15 := by
    unfold crcShiftLeft; split <;> simp_all
  have h15 : x.getLsbD 15 = y.getLsbD 15 := by rw [← low x, ← low y, h]
  have hs : x <<< 1 = y <<< 1 := by
    rw [crcShiftLeft_eq, crcShiftLeft_eq, h15] at h
    exact (BitVec.xor_left_inj _).1 h
  apply BitVec.eq_of_getLsbD_eq
  intro i hi
  by_cases h0 : i = 15
  · subst h0; exact h15
  · have := congrArg (·.getLsbD (i + 1)) hs
    simpa [show i + 1 < 16 by omega, BitVec.getLsbD_eq_getElem hi] using this

/-- The right update's kernel is trivial: its high bit is the bit shifted out. -/
theorem crcShiftRight_inj (x y : BitVec 16) (h : crcShiftRight x = crcShiftRight y) : x = y := by
  have high (z : BitVec 16) : (crcShiftRight z).getLsbD 15 = z.getLsbD 0 := by
    unfold crcShiftRight; split <;> simp_all
  have h0 : x.getLsbD 0 = y.getLsbD 0 := by rw [← high x, ← high y, h]
  have hs : x >>> 1 = y >>> 1 := by
    rw [crcShiftRight_eq, crcShiftRight_eq, h0] at h
    exact (BitVec.xor_left_inj _).1 h
  apply BitVec.eq_of_getLsbD_eq
  intro i hi
  rcases i with _ | i
  · exact h0
  · have := congrArg (·.getLsbD i) hs
    simpa [Nat.add_comm] using this

theorem iterate_inj (f : BitVec 16 → BitVec 16) (hf : ∀ x y, f x = f y → x = y) (n : Nat) (x y : BitVec 16)
    (h : iterate f n x = iterate f n y) : x = y := by
  induction n generalizing x y with
  | zero => exact h
  | succ n ih => exact hf _ _ (ih _ _ h)

/-- Eight left updates move a low byte up, with no subtraction. -/
theorem iterate_left_low (b : Byte) : iterate crcShiftLeft 8 (b.setWidth 16) = b.setWidth 16 <<< 8 := by
  revert b; decide

/-- Eight right updates move a high byte down, with no subtraction. -/
theorem iterate_right_high (b : Byte) : iterate crcShiftRight 8 (b.setWidth 16 <<< 8) = b.setWidth 16 := by
  revert b; decide

/-- A register is its two bytes. -/
theorem register_halves (r : BitVec 16) :
    r = (r.extractLsb' 8 8).setWidth 16 <<< 8 ^^^ (r.extractLsb' 0 8).setWidth 16 := by
  apply BitVec.eq_of_getLsbD_eq
  intro i hi
  by_cases h : i < 8
  · simp [h, hi]
  · simp [h, hi, show i - 8 < 8 by omega, show 8 + (i - 8) = i by omega]

theorem crcFrom_append (refl : Bool) (as bs : List Byte) (r : BitVec 16) :
    crcFrom refl r (as ++ bs) = crcFrom refl (crcFrom refl r as) bs := by
  induction as generalizing r with
  | nil => rfl
  | cons a as ih => exact ih _

end Sys2Proof.Machine
end

