-- ==== Sys2Proof/Laws/Memory.lean ====
section
/-! SUPPORT. The laws of the frame buffer: a read after a write, and the canonical form kept by every write. -/

namespace Sys2Proof.Machine

@[simp] theorem Memory.read_nil (i : Nat) : Memory.read [] i = Memory.unlisted := rfl

@[simp] theorem Memory.wf_nil : Memory.wf [] = true := rfl

@[simp] theorem Memory.below_nil (n : Nat) : Memory.below [] n = true := rfl

theorem Memory.wf_cons (a : Nat) (v : Byte) (m : Memory) :
    Memory.wf ((a, v) :: m) = true ↔ v ≠ Memory.unlisted ∧ (∀ c ∈ m, a < c.1) ∧ Memory.wf m = true := by
  simp [Memory.wf, and_assoc]

theorem Memory.below_iff (m : Memory) (n : Nat) : Memory.below m n = true ↔ ∀ c ∈ m, c.1 < n := by
  simp [Memory.below]

/-- An index no cell lists reads as unlisted. -/
theorem Memory.read_of_not_listed (m : Memory) (i : Nat) (h : ∀ c ∈ m, c.1 ≠ i) :
    Memory.read m i = Memory.unlisted := by
  induction m with
  | nil => rfl
  | cons c m ih =>
    obtain ⟨a, v⟩ := c
    have ha : i ≠ a := fun e => h (a, v) (by simp) e.symm
    simp only [Memory.read, if_neg ha]
    exact ih fun d hd => h d (by simp [hd])

/-- Nothing listed from index `n` on: such an index reads as unlisted. -/
theorem Memory.read_of_below (m : Memory) (n i : Nat) (h : Memory.below m n = true) (hi : n ≤ i) :
    Memory.read m i = Memory.unlisted := by
  refine Memory.read_of_not_listed m i fun c hc => ?_
  have := (Memory.below_iff m n).1 h c hc
  omega

theorem Memory.mem_erase (m : Memory) (i : Nat) (c : Host.Cell) : c ∈ m.erase i ↔ c ∈ m ∧ c.1 ≠ i := by
  simp [Memory.erase]

theorem Memory.mem_insert (m : Memory) (i : Nat) (v : Byte) (c : Host.Cell) :
    c ∈ m.insert i v ↔ c = (i, v) ∨ c ∈ m := by
  induction m with
  | nil => simp [Memory.insert]
  | cons d m ih =>
    obtain ⟨a, x⟩ := d
    simp only [Memory.insert]
    split
    · simp
    · simp only [List.mem_cons, ih]; tauto

/-- What a write lists is what was listed, or the written index. -/
theorem Memory.mem_write (m : Memory) (i : Nat) (v : Byte) (c : Host.Cell) (h : c ∈ Memory.write m i v) :
    c ∈ m ∨ c = (i, v) := by
  simp only [Memory.write] at h
  split at h
  · exact .inl ((Memory.mem_erase m i c).1 h).1
  · rcases (Memory.mem_insert _ i v c).1 h with h | h
    · exact .inr h
    · exact .inl ((Memory.mem_erase m i c).1 h).1

theorem Memory.erase_wf (m : Memory) (i : Nat) (h : Memory.wf m = true) : Memory.wf (m.erase i) = true := by
  induction m with
  | nil => rfl
  | cons c m ih =>
    obtain ⟨a, x⟩ := c
    obtain ⟨hx, ham, hm⟩ := (Memory.wf_cons a x m).1 h
    by_cases ha : a = i
    · simpa [Memory.erase, ha] using ih hm
    · have : Memory.erase ((a, x) :: m) i = (a, x) :: Memory.erase m i := by simp [Memory.erase, ha]
      rw [this]
      exact (Memory.wf_cons a x _).2 ⟨hx, fun d hd => ham d ((Memory.mem_erase m i d).1 hd).1, ih hm⟩

theorem Memory.insert_wf (m : Memory) (i : Nat) (v : Byte) (hv : v ≠ Memory.unlisted)
    (hi : ∀ c ∈ m, c.1 ≠ i) (h : Memory.wf m = true) : Memory.wf (m.insert i v) = true := by
  induction m with
  | nil => simp [Memory.insert, Memory.wf_cons, hv]
  | cons c m ih =>
    obtain ⟨a, x⟩ := c
    obtain ⟨hx, ham, hm⟩ := (Memory.wf_cons a x m).1 h
    have hne : a ≠ i := hi (a, x) (by simp)
    simp only [Memory.insert]
    split
    · next hlt =>
      refine (Memory.wf_cons i v _).2 ⟨hv, fun d hd => ?_, h⟩
      rcases List.mem_cons.1 hd with rfl | hd
      · exact hlt
      · exact hlt.trans (ham d hd)
    · refine (Memory.wf_cons a x _).2 ⟨hx, fun d hd => ?_, ih (fun d hd => hi d (by simp [hd])) hm⟩
      rcases (Memory.mem_insert m i v d).1 hd with rfl | hd
      · simp only; omega
      · exact ham d hd

/-- A write keeps the canonical form. -/
theorem Memory.write_wf (m : Memory) (i : Nat) (v : Byte) (h : Memory.wf m = true) :
    Memory.wf (Memory.write m i v) = true := by
  simp only [Memory.write]
  split
  · exact Memory.erase_wf m i h
  · next hv =>
    exact Memory.insert_wf _ i v hv (fun c hc => ((Memory.mem_erase m i c).1 hc).2) (Memory.erase_wf m i h)

/-- A write at `i` lists nothing from `i + 1` on that was not listed. -/
theorem Memory.write_below (m : Memory) (i : Nat) (v : Byte) (h : Memory.below m i = true) :
    Memory.below (Memory.write m i v) (i + 1) = true := by
  refine (Memory.below_iff _ _).2 fun c hc => ?_
  rcases Memory.mem_write m i v c hc with hc | rfl
  · have := (Memory.below_iff m i).1 h c hc
    omega
  · simp

theorem Memory.read_erase (m : Memory) (i j : Nat) :
    Memory.read (m.erase i) j = if j = i then Memory.unlisted else Memory.read m j := by
  by_cases hj : j = i
  · subst hj
    simp only [if_true]
    exact Memory.read_of_not_listed _ _ fun c hc => ((Memory.mem_erase m j c).1 hc).2
  · simp only [hj, if_false]
    induction m with
    | nil => rfl
    | cons c m ih =>
      obtain ⟨a, x⟩ := c
      by_cases ha : a = i
      · have : Memory.erase ((a, x) :: m) i = Memory.erase m i := by simp [Memory.erase, ha]
        rw [this, ih]
        simp [Memory.read, ha, hj]
      · have : Memory.erase ((a, x) :: m) i = (a, x) :: Memory.erase m i := by simp [Memory.erase, ha]
        rw [this]
        simp only [Memory.read, ih]

theorem Memory.read_insert (m : Memory) (i : Nat) (v : Byte) (j : Nat) (hi : ∀ c ∈ m, c.1 ≠ i) :
    Memory.read (m.insert i v) j = if j = i then v else Memory.read m j := by
  induction m with
  | nil => simp [Memory.insert, Memory.read]
  | cons c m ih =>
    obtain ⟨a, x⟩ := c
    have hne : a ≠ i := hi (a, x) (by simp)
    simp only [Memory.insert]
    split
    · simp only [Memory.read]
    · simp only [Memory.read, ih fun d hd => hi d (by simp [hd])]
      by_cases hj : j = a
      · simp [hj, hne]
      · simp [hj]

/-- Reading after a write: the byte written at its index, and every other index as before. -/
theorem Memory.read_write (m : Memory) (i : Nat) (v : Byte) (j : Nat) :
    Memory.read (Memory.write m i v) j = if j = i then v else Memory.read m j := by
  simp only [Memory.write]
  split
  · next hv => rw [Memory.read_erase, hv]
  · rw [Memory.read_insert _ _ _ _ fun c hc => ((Memory.mem_erase m i c).1 hc).2, Memory.read_erase]
    split <;> rfl

end Sys2Proof.Machine
end

