-- ==== Sys2Proof/Laws/State.lean ====
section
/-! SUPPORT. One lemma per field per update of the state, each true by unfolding, so that no proof unfolds a record
update. -/

namespace Sys2Proof.Machine

@[simp] theorem State.dsReset_mode (s : State) : (s.dsReset).mode = s.mode := rfl
@[simp] theorem State.dsReset_win (s : State) : (s.dsReset).win = s.win := rfl
@[simp] theorem State.dsReset_phase (s : State) : (s.dsReset).phase = false := rfl
@[simp] theorem State.dsReset_ref (s : State) : (s.dsReset).ref = false := rfl
@[simp] theorem State.dsReset_acc (s : State) : (s.dsReset).acc = 0x00#8 := rfl
@[simp] theorem State.dsReset_bitpos (s : State) : (s.dsReset).bitpos = 0#3 := rfl
@[simp] theorem State.dsReset_count (s : State) : (s.dsReset).count = 0 := rfl
@[simp] theorem State.dsReset_viol (s : State) : (s.dsReset).viol = 0 := rfl
@[simp] theorem State.dsReset_buf (s : State) : (s.dsReset).buf = [] := rfl
@[simp] theorem State.dsReset_cfg (s : State) : (s.dsReset).cfg = s.cfg := rfl
@[simp] theorem State.dsReset_input (s : State) : (s.dsReset).input = s.input := rfl
@[simp] theorem State.dsReset_frameOut (s : State) : (s.dsReset).frameOut = s.frameOut := rfl
@[simp] theorem State.dsReset_stepNo (s : State) : (s.dsReset).stepNo = s.stepNo := rfl

@[simp] theorem State.resetCore_mode (s : State) : (s.resetCore).mode = .hunting := rfl
@[simp] theorem State.resetCore_win (s : State) : (s.resetCore).win = s.cfg.windowInit := rfl
@[simp] theorem State.resetCore_phase (s : State) : (s.resetCore).phase = false := rfl
@[simp] theorem State.resetCore_ref (s : State) : (s.resetCore).ref = false := rfl
@[simp] theorem State.resetCore_acc (s : State) : (s.resetCore).acc = 0x00#8 := rfl
@[simp] theorem State.resetCore_bitpos (s : State) : (s.resetCore).bitpos = 0#3 := rfl
@[simp] theorem State.resetCore_count (s : State) : (s.resetCore).count = 0 := rfl
@[simp] theorem State.resetCore_viol (s : State) : (s.resetCore).viol = 0 := rfl
@[simp] theorem State.resetCore_buf (s : State) : (s.resetCore).buf = [] := rfl
@[simp] theorem State.resetCore_cfg (s : State) : (s.resetCore).cfg = s.cfg := rfl
@[simp] theorem State.resetCore_input (s : State) : (s.resetCore).input = s.input := rfl
@[simp] theorem State.resetCore_frameOut (s : State) : (s.resetCore).frameOut = s.frameOut := rfl
@[simp] theorem State.resetCore_stepNo (s : State) : (s.resetCore).stepNo = s.stepNo := rfl

@[simp] theorem State.emit_mode (s : State) (f : Frame) : (s.emit f).mode = s.mode := rfl
@[simp] theorem State.emit_win (s : State) (f : Frame) : (s.emit f).win = s.win := rfl
@[simp] theorem State.emit_phase (s : State) (f : Frame) : (s.emit f).phase = s.phase := rfl
@[simp] theorem State.emit_ref (s : State) (f : Frame) : (s.emit f).ref = s.ref := rfl
@[simp] theorem State.emit_acc (s : State) (f : Frame) : (s.emit f).acc = s.acc := rfl
@[simp] theorem State.emit_bitpos (s : State) (f : Frame) : (s.emit f).bitpos = s.bitpos := rfl
@[simp] theorem State.emit_count (s : State) (f : Frame) : (s.emit f).count = s.count := rfl
@[simp] theorem State.emit_viol (s : State) (f : Frame) : (s.emit f).viol = s.viol := rfl
@[simp] theorem State.emit_buf (s : State) (f : Frame) : (s.emit f).buf = s.buf := rfl
@[simp] theorem State.emit_cfg (s : State) (f : Frame) : (s.emit f).cfg = s.cfg := rfl
@[simp] theorem State.emit_input (s : State) (f : Frame) : (s.emit f).input = s.input := rfl
@[simp] theorem State.emit_frameOut (s : State) (f : Frame) : (s.emit f).frameOut = some f := rfl
@[simp] theorem State.emit_stepNo (s : State) (f : Frame) : (s.emit f).stepNo = s.stepNo := rfl

@[simp] theorem State.shiftIn_mode (s : State) (b : Bool) : (s.shiftIn b).mode = s.mode := rfl
@[simp] theorem State.shiftIn_win (s : State) (b : Bool) : (s.shiftIn b).win = s.win := rfl
@[simp] theorem State.shiftIn_phase (s : State) (b : Bool) : (s.shiftIn b).phase = s.phase := rfl
@[simp] theorem State.shiftIn_ref (s : State) (b : Bool) : (s.shiftIn b).ref = s.ref := rfl
@[simp] theorem State.shiftIn_acc (s : State) (b : Bool) : (s.shiftIn b).acc = shiftAcc s.acc b := rfl
@[simp] theorem State.shiftIn_bitpos (s : State) (b : Bool) : (s.shiftIn b).bitpos = s.bitpos + 1 := rfl
@[simp] theorem State.shiftIn_count (s : State) (b : Bool) : (s.shiftIn b).count = s.count := rfl
@[simp] theorem State.shiftIn_viol (s : State) (b : Bool) : (s.shiftIn b).viol = s.viol := rfl
@[simp] theorem State.shiftIn_buf (s : State) (b : Bool) : (s.shiftIn b).buf = s.buf := rfl
@[simp] theorem State.shiftIn_cfg (s : State) (b : Bool) : (s.shiftIn b).cfg = s.cfg := rfl
@[simp] theorem State.shiftIn_input (s : State) (b : Bool) : (s.shiftIn b).input = s.input := rfl
@[simp] theorem State.shiftIn_frameOut (s : State) (b : Bool) : (s.shiftIn b).frameOut = s.frameOut := rfl
@[simp] theorem State.shiftIn_stepNo (s : State) (b : Bool) : (s.shiftIn b).stepNo = s.stepNo := rfl

@[simp] theorem State.takePair_mode (s : State) (e : Bool) : (s.takePair e).mode = s.mode := rfl
@[simp] theorem State.takePair_win (s : State) (e : Bool) : (s.takePair e).win = s.win := rfl
@[simp] theorem State.takePair_phase (s : State) (e : Bool) : (s.takePair e).phase = false := rfl
@[simp] theorem State.takePair_ref (s : State) (e : Bool) : (s.takePair e).ref = s.ref := rfl
@[simp] theorem State.takePair_acc (s : State) (e : Bool) : (s.takePair e).acc = s.acc := rfl
@[simp] theorem State.takePair_bitpos (s : State) (e : Bool) : (s.takePair e).bitpos = s.bitpos := rfl
@[simp] theorem State.takePair_count (s : State) (e : Bool) : (s.takePair e).count = s.count := rfl
@[simp] theorem State.takePair_viol (s : State) (e : Bool) : (s.takePair e).viol = s.viol + e.toNat := rfl
@[simp] theorem State.takePair_buf (s : State) (e : Bool) : (s.takePair e).buf = s.buf := rfl
@[simp] theorem State.takePair_cfg (s : State) (e : Bool) : (s.takePair e).cfg = s.cfg := rfl
@[simp] theorem State.takePair_input (s : State) (e : Bool) : (s.takePair e).input = s.input := rfl
@[simp] theorem State.takePair_frameOut (s : State) (e : Bool) : (s.takePair e).frameOut = s.frameOut := rfl
@[simp] theorem State.takePair_stepNo (s : State) (e : Bool) : (s.takePair e).stepNo = s.stepNo := rfl

@[simp] theorem State.decodePair_mode (s : State) (e : Bool) : (s.decodePair e).mode = s.mode := rfl
@[simp] theorem State.decodePair_win (s : State) (e : Bool) : (s.decodePair e).win = s.win := rfl
@[simp] theorem State.decodePair_phase (s : State) (e : Bool) : (s.decodePair e).phase = false := rfl
@[simp] theorem State.decodePair_ref (s : State) (e : Bool) : (s.decodePair e).ref = s.ref := rfl
@[simp] theorem State.decodePair_acc (s : State) (e : Bool) : (s.decodePair e).acc = shiftAcc s.acc (manBit s.ref) := rfl
@[simp] theorem State.decodePair_bitpos (s : State) (e : Bool) : (s.decodePair e).bitpos = s.bitpos + 1 := rfl
@[simp] theorem State.decodePair_count (s : State) (e : Bool) : (s.decodePair e).count = s.count := rfl
@[simp] theorem State.decodePair_viol (s : State) (e : Bool) : (s.decodePair e).viol = s.viol + e.toNat := rfl
@[simp] theorem State.decodePair_buf (s : State) (e : Bool) : (s.decodePair e).buf = s.buf := rfl
@[simp] theorem State.decodePair_cfg (s : State) (e : Bool) : (s.decodePair e).cfg = s.cfg := rfl
@[simp] theorem State.decodePair_input (s : State) (e : Bool) : (s.decodePair e).input = s.input := rfl
@[simp] theorem State.decodePair_frameOut (s : State) (e : Bool) : (s.decodePair e).frameOut = s.frameOut := rfl
@[simp] theorem State.decodePair_stepNo (s : State) (e : Bool) : (s.decodePair e).stepNo = s.stepNo := rfl

@[simp] theorem State.pairFirst_mode (s : State) (b : Sym) : (s.pairFirst b).mode = s.mode := rfl
@[simp] theorem State.pairFirst_win (s : State) (b : Sym) : (s.pairFirst b).win = s.win := rfl
@[simp] theorem State.pairFirst_phase (s : State) (b : Sym) : (s.pairFirst b).phase = true := rfl
@[simp] theorem State.pairFirst_ref (s : State) (b : Sym) : (s.pairFirst b).ref = b := rfl
@[simp] theorem State.pairFirst_acc (s : State) (b : Sym) : (s.pairFirst b).acc = s.acc := rfl
@[simp] theorem State.pairFirst_bitpos (s : State) (b : Sym) : (s.pairFirst b).bitpos = s.bitpos := rfl
@[simp] theorem State.pairFirst_count (s : State) (b : Sym) : (s.pairFirst b).count = s.count := rfl
@[simp] theorem State.pairFirst_viol (s : State) (b : Sym) : (s.pairFirst b).viol = s.viol := rfl
@[simp] theorem State.pairFirst_buf (s : State) (b : Sym) : (s.pairFirst b).buf = s.buf := rfl
@[simp] theorem State.pairFirst_cfg (s : State) (b : Sym) : (s.pairFirst b).cfg = s.cfg := rfl
@[simp] theorem State.pairFirst_input (s : State) (b : Sym) : (s.pairFirst b).input = s.input := rfl
@[simp] theorem State.pairFirst_frameOut (s : State) (b : Sym) : (s.pairFirst b).frameOut = s.frameOut := rfl
@[simp] theorem State.pairFirst_stepNo (s : State) (b : Sym) : (s.pairFirst b).stepNo = s.stepNo := rfl

@[simp] theorem State.lock_mode (s : State) : (s.lock).mode = .locked := rfl
@[simp] theorem State.lock_win (s : State) : (s.lock).win = (if s.cfg.windowClearOnLock then 0x00000#20 else s.win) := rfl
@[simp] theorem State.lock_phase (s : State) : (s.lock).phase = false := rfl
@[simp] theorem State.lock_ref (s : State) : (s.lock).ref = false := rfl
@[simp] theorem State.lock_acc (s : State) : (s.lock).acc = 0x00#8 := rfl
@[simp] theorem State.lock_bitpos (s : State) : (s.lock).bitpos = 0#3 := rfl
@[simp] theorem State.lock_count (s : State) : (s.lock).count = 0 := rfl
@[simp] theorem State.lock_viol (s : State) : (s.lock).viol = 0 := rfl
@[simp] theorem State.lock_buf (s : State) : (s.lock).buf = [] := rfl
@[simp] theorem State.lock_cfg (s : State) : (s.lock).cfg = s.cfg := rfl
@[simp] theorem State.lock_input (s : State) : (s.lock).input = s.input := rfl
@[simp] theorem State.lock_frameOut (s : State) : (s.lock).frameOut = s.frameOut := rfl
@[simp] theorem State.lock_stepNo (s : State) : (s.lock).stepNo = s.stepNo := rfl

@[simp] theorem State.beginStep_mode (s : State) : (s.beginStep).mode = s.mode := rfl
@[simp] theorem State.beginStep_win (s : State) : (s.beginStep).win = s.win := rfl
@[simp] theorem State.beginStep_phase (s : State) : (s.beginStep).phase = s.phase := rfl
@[simp] theorem State.beginStep_ref (s : State) : (s.beginStep).ref = s.ref := rfl
@[simp] theorem State.beginStep_acc (s : State) : (s.beginStep).acc = s.acc := rfl
@[simp] theorem State.beginStep_bitpos (s : State) : (s.beginStep).bitpos = s.bitpos := rfl
@[simp] theorem State.beginStep_count (s : State) : (s.beginStep).count = s.count := rfl
@[simp] theorem State.beginStep_viol (s : State) : (s.beginStep).viol = s.viol := rfl
@[simp] theorem State.beginStep_buf (s : State) : (s.beginStep).buf = s.buf := rfl
@[simp] theorem State.beginStep_cfg (s : State) : (s.beginStep).cfg = s.cfg := rfl
@[simp] theorem State.beginStep_input (s : State) : (s.beginStep).input = s.input := rfl
@[simp] theorem State.beginStep_frameOut (s : State) : (s.beginStep).frameOut = none := rfl
@[simp] theorem State.beginStep_stepNo (s : State) : (s.beginStep).stepNo = s.stepNo + 1 := rfl

end Sys2Proof.Machine
end

