-- ==== Sys2Proof/Laws/Ops.lean ====
section
/-! SUPPORT. For each operand form and shared operation, what it can do, said once: the provers cite these and do not
unfold the operations. -/

namespace Sys2Proof.Machine

open Sys2Proof.Safety

/-! ### Operands -/

/-- R102's two spellings of the shifted window agree. -/
theorem shiftWindow_eq (win : Window) (b : Sym) :
    shiftWindow win b = win.extractLsb' 0 19 ++ BitVec.ofBool (!b) := by
  have h1 : (0xFFFFF#20 : BitVec 20) = BitVec.allOnes 20 := by decide
  apply BitVec.eq_of_getLsbD_eq
  intro i hi
  rw [BitVec.getLsbD_append]
  simp only [shiftWindow, corrBit, h1, BitVec.and_allOnes, BitVec.getLsbD_or]
  rcases i with _ | i
  · simp
  · simp [hi, show i < 19 by omega, BitVec.getLsbD_eq_getElem (show i < 20 by omega)]

/-- R141's two spellings of the shifted accumulator agree. -/
theorem shiftAcc_eq (acc : Byte) (b : Bool) : shiftAcc acc b = acc.extractLsb' 0 7 ++ BitVec.ofBool b := by
  revert acc b; decide

/-- The bits of the shifted accumulator: the new bit, then the old ones one place up. -/
theorem shiftAcc_getLsbD (acc : Byte) (b : Bool) (i : Nat) (hi : i < 8) :
    (shiftAcc acc b).getLsbD i = if i = 0 then b else acc.getLsbD (i - 1) := by
  rw [shiftAcc_eq, BitVec.getLsbD_eq_getElem hi, BitVec.getElem_append]
  rcases i with _ | i <;> simp

/-- The bits of the shifted window. -/
theorem shiftWindow_getLsbD (win : Window) (b : Sym) (i : Nat) (hi : i < 20) :
    (shiftWindow win b).getLsbD i = if i = 0 then !b else win.getLsbD (i - 1) := by
  rw [shiftWindow_eq, BitVec.getLsbD_eq_getElem hi, BitVec.getElem_append]
  rcases i with _ | i <;> simp

/-! ### Answers -/

@[simp] theorem answerOf_ok (s : State) : answerOf (.ok s) = .next s := rfl

@[simp] theorem answerOf_error (f : Fault) : answerOf (.error f) = .fault f := rfl

theorem answerOf_next (r : Except Fault State) (t : State) : answerOf r = .next t ↔ r = .ok t := by
  cases r <;> simp

/-! ### The buffer -/

theorem bufRead_of_lt (s : State) (i : Nat) (h : i < s.cfg.capacity) : s.bufRead i = .ok (s.buf.read i) := by
  simp [State.bufRead, h]

theorem bufRead_of_ge (s : State) (i : Nat) (h : s.cfg.capacity ≤ i) : s.bufRead i = .error (.bufferIndex i) := by
  simp [State.bufRead, h]

theorem bufReadFrom_of_le (s : State) (n i : Nat) (h : i + n ≤ s.cfg.capacity) :
    s.bufReadFrom i n = .ok ((List.range' i n).map (fun j => s.buf.read j)) := by
  induction n generalizing i with
  | zero => rfl
  | succ n ih =>
    have h1 := bufRead_of_lt s i (by omega)
    have h2 := ih (i + 1) (by omega)
    simp [State.bufReadFrom, h1, h2, List.range'_succ]

theorem bufReadFrom_of_gt (s : State) (n i : Nat) (hi : i ≤ s.cfg.capacity) (h : s.cfg.capacity < i + n) :
    s.bufReadFrom i n = .error (.bufferIndex s.cfg.capacity) := by
  induction n generalizing i with
  | zero => omega
  | succ n ih =>
    rcases Nat.lt_or_ge i s.cfg.capacity with hlt | hge
    · have h1 := bufRead_of_lt s i hlt
      have h2 := ih (i + 1) (by omega) (by omega)
      simp [State.bufReadFrom, h1, h2]
    · have he : i = s.cfg.capacity := by omega
      subst he
      simp only [State.bufReadFrom, bufRead_of_ge s _ hge]

/-! ### finalize -/

/-- The frame the model makes is the frame the rules give. -/
theorem makeFrame_eq_heldFrame (s : State) (n : Nat) :
    makeFrame s.cfg n ((List.range n).map (fun i => s.buf.read i)) = heldFrame s n := by
  simp only [makeFrame, heldFrame, crcVerdict, Bool.decide_and, beq_eq_decide]

/-- finalize within the buffer (R171, R172). -/
theorem finalize_of_le (s : State) (h : s.count ≤ s.cfg.capacity) :
    s.finalize = .ok (State.dsReset { s with
      frameOut := if s.count = 0 then s.frameOut else some (heldFrame s s.count) }) := by
  by_cases h0 : s.count = 0
  · simp [State.finalize, State.dsReset, h0]
  · have h1 : 1 ≤ s.count := by omega
    have h2 := bufReadFrom_of_le s s.count 0 (by omega)
    rw [← List.range_eq_range'] at h2
    simp only [State.finalize, h1, if_true, h2, makeFrame_eq_heldFrame, h0, if_false]
    rfl

/-- finalize beyond the buffer (U14). -/
theorem finalize_of_gt (s : State) (h : s.cfg.capacity < s.count) :
    s.finalize = .error (.bufferIndex s.cfg.capacity) := by
  have h2 := bufReadFrom_of_gt s s.count 0 (by omega) (by omega)
  have h1 : 1 ≤ s.count := by omega
  simp [State.finalize, h1, h2]

/-- If finalize answers, the count was within the buffer. -/
theorem finalize_ok (s t : State) (h : s.finalize = .ok t) : s.count ≤ s.cfg.capacity ∧
    t = State.dsReset { s with frameOut := if s.count = 0 then s.frameOut else some (heldFrame s s.count) } := by
  rcases Nat.lt_or_ge s.cfg.capacity s.count with hgt | hle
  · rw [finalize_of_gt s hgt] at h; cases h
  · rw [finalize_of_le s hle] at h; exact ⟨hle, (Except.ok.inj h).symm⟩

theorem endFrame_of_le (s : State) (h : s.count ≤ s.cfg.capacity) :
    s.endFrame = .ok (State.dsReset { s with
      mode := .hunting, frameOut := if s.count = 0 then s.frameOut else some (heldFrame s s.count) }) := by
  simp only [State.endFrame, finalize_of_le s h]; rfl

theorem endFrame_of_gt (s : State) (h : s.cfg.capacity < s.count) :
    s.endFrame = .error (.bufferIndex s.cfg.capacity) := by
  simp only [State.endFrame, finalize_of_gt s h]

/-! ### The assembler -/

theorem storeByte_of_lt (s : State) (h : s.count < s.cfg.capacity) :
    s.storeByte = .ok { s with buf := s.buf.write s.count s.acc, count := s.count + 1 } := by
  simp [State.storeByte, State.bufWrite, h]

theorem storeByte_of_ge (s : State) (h : s.cfg.capacity ≤ s.count) :
    s.storeByte = .error (.bufferIndex s.count) := by
  simp [State.storeByte, State.bufWrite, Nat.not_lt.2 h]

/-- The byte store that ends the frame (R147): the frame has the stored byte as its last. -/
theorem completeFrame_of_lt (s : State) (h : s.count < s.cfg.capacity) :
    s.completeFrame = .ok (State.dsReset { s with
      mode := .hunting
      frameOut := some (heldFrame { s with buf := s.buf.write s.count s.acc } (s.count + 1)) }) := by
  have h1 := storeByte_of_lt s h
  have h2 := endFrame_of_le { s with buf := s.buf.write s.count s.acc, count := s.count + 1 } h
  simp only [State.completeFrame, h1, h2, Nat.add_one_ne_zero, if_false]
  rfl

/-- The resync test within the buffer (R143). -/
theorem resyncHit_of_le (s : State) (h : s.count ≤ s.cfg.capacity) :
    s.resyncHit = .ok (decide (s.bitpos = 2#3) && decide (2 ≤ s.count) &&
      s.buf.read (s.count - 1) == resyncByte s.cfg && s.acc.extractLsb' 0 2 == resyncLow2 s.cfg) := by
  by_cases h1 : s.bitpos = 2#3 ∧ 2 ≤ s.count
  · have h2 := bufRead_of_lt s (s.count - 1) (by omega)
    simp [State.resyncHit, h1, h2]
  · rw [State.resyncHit, if_neg h1]
    congr 1
    by_cases hb : s.bitpos = 2#3
    · have hc : ¬ 2 ≤ s.count := fun hc => h1 ⟨hb, hc⟩
      simp [hc]
    · simp [hb]

/-- The split within the buffer (R144). -/
theorem splitFrame_of_le (s : State) (h1 : 1 ≤ s.count) (h : s.count ≤ s.cfg.capacity + 1) :
    s.splitFrame = .ok (State.dsReset { s with
      frameOut := if s.count = 1 then s.frameOut else some (heldFrame s (s.count - 1)) }) := by
  have h0 : s.count ≠ 0 := by omega
  rw [State.splitFrame, if_neg h0, finalize_of_le _ (by simp only; omega)]
  by_cases hc : s.count = 1
  · simp [hc, State.dsReset]
  · have : s.count - 1 ≠ 0 := by omega
    simp [hc, this, State.dsReset, heldFrame]

/-! ### The bit decoder and the correlator -/

theorem fresh_dsReset (s : State) : Fresh s.dsReset := ⟨rfl, rfl, rfl, rfl, rfl, rfl, rfl⟩

theorem manBit_of_ne (b r : Sym) (h : b ≠ r) : manBit r = b := by
  cases b <;> cases r <;> simp_all [manBit]

/-- A valid pair hands its second level to the assembler (R122, R126). -/
theorem pairSecond_of_ne (s : State) (b : Sym) (h : b ≠ s.ref) :
    s.pairSecond b = ({ s with phase := false } : State).assemble b := by
  simp only [State.pairSecond, h, if_false, manBit_of_ne b s.ref h]

/-- A violation is counted, and then ends the frame or decodes from the reference (R123, R124). -/
theorem pairSecond_of_eq (s : State) :
    s.pairSecond s.ref =
      if s.viol + 1 > s.cfg.tolerance then ({ s with phase := false, viol := s.viol + 1 } : State).endFrame
      else ({ s with phase := false, viol := s.viol + 1 } : State).assemble (manBit s.ref) := by
  simp only [State.pairSecond, if_true]

/-- A pair that does not end the frame hands the reference's bit to the assembler, a violation counted (R124). -/
theorem pairSecond_of_not_trip (s : State) (b : Sym) (h : ¬ (b = s.ref ∧ s.viol + 1 > s.cfg.tolerance)) :
    s.pairSecond b =
      ({ s with phase := false, viol := s.viol + (b == s.ref).toNat } : State).assemble (!s.ref) := by
  by_cases hb : b = s.ref
  · have hv : ¬ s.viol + 1 > s.cfg.tolerance := fun hv => h ⟨hb, hv⟩
    subst hb
    rw [pairSecond_of_eq, if_neg hv]
    simp [manBit]
  · have hb' : (b == s.ref) = false := by simpa using hb
    rw [pairSecond_of_ne s b hb, hb', ← manBit_of_ne b s.ref hb]
    rfl

/-- What a hunting symbol can do: lock, or shift the window and nothing else (R103, R104). -/
theorem huntShift_cases (s : State) (b : Sym) :
    (shiftWindow s.win b = s.cfg.preEnc ∧ s.huntShift b = ({ s with win := shiftWindow s.win b } : State).lock) ∨
    (shiftWindow s.win b ≠ s.cfg.preEnc ∧ s.huntShift b = { s with win := shiftWindow s.win b }) := by
  by_cases h : shiftWindow s.win b = s.cfg.preEnc
  · exact .inl ⟨h, by simp [State.huntShift, h]⟩
  · exact .inr ⟨h, by simp [State.huntShift, h]⟩

/-! ### The outcome word -/

/-- The five flags of R75 as their constraints leave them, decoded. -/
theorem decode_outcome_bits (eq trip rs bc full : Bool) (h1 : trip = true → eq = true) (h2 : trip = true → rs = false)
    (h3 : trip = true → bc = false) (h4 : rs = true → bc = false) (h5 : full = true → bc = true) :
    decode (.outcome (BitVec.ofBool eq ++ BitVec.ofBool trip ++ BitVec.ofBool rs ++ BitVec.ofBool bc ++
      BitVec.ofBool full)) =
    .ok (if trip then .violationAbort else if rs then .resync eq else if full then .maxlenComplete eq
      else if bc then .byteStore eq else .bitAccumulate eq) := by
  revert eq trip rs bc full; decide

/-- The instruction an OUTCOME word stands for, flag by flag (R75). -/
theorem decode_outcomeWord (s : State) (b : Sym) :
    decode (.outcome (outcomeWord s b)) =
    .ok (if flagTrip s b then .violationAbort else if flagRs s b then .resync (flagEq s b)
      else if flagFull s b then .maxlenComplete (flagEq s b) else if flagBc s b then .byteStore (flagEq s b)
      else .bitAccumulate (flagEq s b)) := by
  unfold outcomeWord
  apply decode_outcome_bits
  · unfold flagTrip; cases flagEq s b <;> simp
  · intro h; simp [flagRs, h]
  · intro h; simp [flagBc, h]
  · intro h
    simp only [flagRs, Bool.and_eq_true, beq_iff_eq] at h
    simp [flagBc, h.1.1.1.2]
  · intro h; simp only [flagFull, Bool.and_eq_true] at h; exact h.1

end Sys2Proof.Machine
end

