-- ==== Sys2Proof/Laws/PerInstr.lean ====
section
/-! SUPPORT. Facts about every instruction as syntax, one lemma per constructor: the word the encoder gives has the
format and the fixed bits of the instruction's row of the opcode table. -/

namespace Sys2Proof.Laws.TableBits

/-- A well-formed instruction's word stands in its row of the opcode table. -/
def Statement (i : Instr) : Prop :=
  i.wellFormed = true → (encode i).format = i.row.format ∧ (encode i).bits &&& i.row.mask = i.row.pattern

theorem reset (x : BitVec 2) : Statement (.reset x) := by revert x; unfold Statement; decide

theorem idle (x : Bool) : Statement (.idle x) := by revert x; unfold Statement; decide

theorem sym0 : Statement .sym0 := by unfold Statement; decide

theorem sym1 : Statement .sym1 := by unfold Statement; decide

theorem byteZero : Statement .byteZero := by unfold Statement; decide

theorem byteNonzero (b : Byte) : Statement (.byteNonzero b) := fun _ => ⟨rfl, Nat.and_zero _⟩

theorem huntShift (x : Bool) (s : Sym) : Statement (.huntShift x s) := by revert x s; unfold Statement; decide

theorem pairFirst (s : Sym) : Statement (.pairFirst s) := by revert s; unfold Statement; decide

theorem pairSecond (s : Sym) : Statement (.pairSecond s) := by revert s; unfold Statement; decide

theorem violationAbort : Statement .violationAbort := by unfold Statement; decide

theorem bitAccumulate (e : Bool) : Statement (.bitAccumulate e) := by revert e; unfold Statement; decide

theorem resync (e : Bool) : Statement (.resync e) := by revert e; unfold Statement; decide

theorem byteStore (e : Bool) : Statement (.byteStore e) := by revert e; unfold Statement; decide

theorem maxlenComplete (e : Bool) : Statement (.maxlenComplete e) := by revert e; unfold Statement; decide

theorem finalize : Statement .finalize := by unfold Statement; decide

end Sys2Proof.Laws.TableBits
end

