-- ==== Sys2Proof/Laws/Run.lean ====
section
/-! SUPPORT. A run step by step: what its first step adds, and that a run of `m + n` steps is its first `m` and then its
last `n`. -/

namespace Sys2Proof.Machine

theorem observe_succ_of_next (n : Nat) (s t : State) (h : step s = .next t) :
    (observe (n + 1) s).frames = t.emitted ++ (observe n t).frames ∧
      (observe (n + 1) s).final = (observe n t).final := by
  simp only [observe, h, and_self]

theorem mem_emitted (s : State) (k : Nat) (f : Frame) :
    (k, f) ∈ s.emitted ↔ k = s.stepNo ∧ s.frameOut = some f := by
  cases h : s.frameOut <;> simp [State.emitted, h, eq_comm]

theorem observe_add (m n : Nat) (s t : State) (h : (observe m s).final = .next t) :
    (observe (m + n) s).frames = (observe m s).frames ++ (observe n t).frames ∧
      (observe (m + n) s).final = (observe n t).final := by
  induction m generalizing s with
  | zero =>
    obtain rfl : s = t := by injection h
    simp [observe]
  | succ m ih =>
    cases hs : step s with
    | next u =>
      obtain ⟨h1, h2⟩ := observe_succ_of_next m s u hs
      rw [h2] at h
      obtain ⟨e1, e2⟩ := observe_succ_of_next (m + n) s u hs
      rw [Nat.add_right_comm, e1, e2, h1, (ih u h).1, (ih u h).2, List.append_assoc]
      exact ⟨rfl, rfl⟩
    | fault f => simp [observe, hs] at h
    | refused r => simp [observe, hs] at h

end Sys2Proof.Machine
end

