-- ==== Sys2Proof/Laws/Step.lean ====
section
/-! SUPPORT. What a port word, a symbol and a step can do, said once. -/

namespace Sys2Proof.Machine

open Sys2Proof.Safety

/-- A port word is a reset, an idle or a symbol (R71, R72, R81). -/
theorem decodePort_cases (w : PortWord) :
    (w.rst = true ∧ ∃ x, decodePort w = .reset x) ∨ (w.rst = false ∧ ∃ x, decodePort w = .idle x) ∨
      (w.rst = false ∧ ∃ b, symbolOf (decodePort w) = some b) := by
  cases w with
  | inp w => revert w; decide
  | byte b =>
    refine .inr (.inr ⟨rfl, ?_⟩)
    by_cases h : b = 0#8 <;> simp [decodePort, decodeByte, symbolOf, h]

/-- An instruction that brings a symbol runs the driver loop on it (R200). -/
theorem exec_of_symbol (i : Instr) (b : Sym) (s : State) (h : symbolOf i = some b) :
    exec i s = answerOf (s.onSymbol b) := by
  cases i <;> simp only [symbolOf, reduceCtorEq, Option.some.injEq] at h
  case sym0 => subst h; rfl
  case sym1 => subst h; rfl
  case byteZero => subst h; rfl
  case byteNonzero x =>
    split at h
    · cases h
    · next hx =>
      have hb : true = b := Option.some.inj h
      subst hb
      have hl : byteLevel x = true := by simpa [byteLevel] using hx
      simp [exec, execByteNonzero, hl]

/-- What a completed step was: a wait with nothing presented, or the run of an accepted transaction. -/
theorem step_next_cases (s t : State) (h : step s = .next t) :
    (s.input = [] ∧ s.cfg.Legal ∧ t = { s with frameOut := none, stepNo := s.stepNo + 1 }) ∨
    ∃ x rest, s.input = x :: rest ∧ ConfigAccepted s x ∧
      exec (decodePort x.word) (stateAtExec s x rest) = .next t := by
  cases hin : s.input with
  | nil =>
    refine .inl ⟨rfl, ?_⟩
    by_cases hl : s.cfg.Legal
    · simp [step, State.fetch, hin, State.configure, hl, exec, execIdle, State.beginStep] at h
      exact ⟨hl, h.symm⟩
    · simp [step, State.fetch, hin, State.configure, hl] at h
  | cons x rest =>
    refine .inr ⟨x, rest, rfl, ?_⟩
    by_cases hl : (x.cfg.getD s.cfg).Legal
    · by_cases hc : x.cfg.getD s.cfg = s.cfg ∨ x.word.rst = true
      · refine ⟨⟨hl, hc⟩, ?_⟩
        have hn : ¬ (x.cfg.getD s.cfg ≠ s.cfg ∧ x.word.rst = false) := by
          rintro ⟨h1, h2⟩
          rcases hc with hc | hc
          · exact h1 hc
          · rw [h2] at hc; cases hc
        simp only [step, State.fetch, hin, State.configure, hl, not_true_eq_false, if_false, if_neg hn] at h
        exact h
      · have hn : x.cfg.getD s.cfg ≠ s.cfg ∧ x.word.rst = false := by
          refine ⟨fun e => hc (.inl e), ?_⟩
          cases hr : x.word.rst
          · rfl
          · exact absurd (.inr hr) hc
        simp only [step, State.fetch, hin, State.configure, hl, not_true_eq_false, if_false, if_pos hn] at h
        cases h
    · simp only [step, State.fetch, hin, State.configure, hl, not_false_eq_true, if_true] at h
      cases h

/-- An accepted transaction's instruction runs on the state with the transaction taken. -/
theorem step_of_accepted (s : State) (x : Transaction) (rest : List Transaction) (hin : s.input = x :: rest)
    (hc : ConfigAccepted s x) : step s = exec (decodePort x.word) (stateAtExec s x rest) := by
  obtain ⟨hl, hc⟩ := hc
  have hn : ¬ (x.cfg.getD s.cfg ≠ s.cfg ∧ x.word.rst = false) := by
    rintro ⟨h1, h2⟩
    rcases hc with hc | hc
    · exact h1 hc
    · rw [h2] at hc; cases hc
  simp only [step, State.fetch, hin, State.configure, hl, not_true_eq_false, if_false, if_neg hn]
  rfl

/-- The assembler within the buffer (R140), one clause per outcome. -/
theorem assemble_of_le (s : State) (bit : Bool) (h : s.count ≤ s.cfg.capacity) :
    s.assemble bit =
      if decide ((s.shiftIn bit).bitpos = 2#3) && decide (2 ≤ s.count) &&
          s.buf.read (s.count - 1) == resyncByte s.cfg &&
          (s.shiftIn bit).acc.extractLsb' 0 2 == resyncLow2 s.cfg then (s.shiftIn bit).splitFrame
      else if (s.shiftIn bit).bitpos = 0#3 then
        (if s.count + 1 = s.cfg.capacity then (s.shiftIn bit).completeFrame else (s.shiftIn bit).storeByte)
      else .ok (s.shiftIn bit) := by
  have hr : (s.shiftIn bit).resyncHit = .ok (decide ((s.shiftIn bit).bitpos = 2#3) && decide (2 ≤ s.count) &&
      s.buf.read (s.count - 1) == resyncByte s.cfg &&
      (s.shiftIn bit).acc.extractLsb' 0 2 == resyncLow2 s.cfg) := resyncHit_of_le (s.shiftIn bit) h
  cases hc : (decide ((s.shiftIn bit).bitpos = 2#3) && decide (2 ≤ s.count) &&
      s.buf.read (s.count - 1) == resyncByte s.cfg &&
      (s.shiftIn bit).acc.extractLsb' 0 2 == resyncLow2 s.cfg) <;> rw [hc] at hr
  · simp only [State.assemble, hr, Bool.false_eq_true, if_false]
    by_cases hb : (s.shiftIn bit).bitpos = 0#3
    · simp only [hb, if_true]
      rcases Nat.lt_or_ge s.count s.cfg.capacity with hlt | hge
      · simp only [State.completeFrame, storeByte_of_lt (s.shiftIn bit) hlt, State.shiftIn_count, State.shiftIn_cfg]
      · have h2 : s.count + 1 ≠ s.cfg.capacity := by omega
        simp only [storeByte_of_ge (s.shiftIn bit) hge, h2, if_false]
    · simp only [hb, if_false]
  · simp only [State.assemble, hr, if_true]

end Sys2Proof.Machine
end

