-- ==== Sys2Proof/Laws/Symbols.lean ====
section
/-! SUPPORT. Symbols fed one after another: what they leave in the window while hunting, and what a pair of them does
while locked (R102, R122). -/

namespace Sys2Proof.Machine

open Sys2Proof.Safety

theorem feed_append (bs cs : List Sym) (s : State) :
    feed (bs ++ cs) s = match feed bs s with
      | .next t => feed cs t
      | .fault f => .fault f
      | .refused r => .refused r := by
  induction bs generalizing s with
  | nil => rfl
  | cons b bs ih =>
    simp only [List.cons_append, feed]
    cases exec (symInstr b) s with
    | next t => exact ih t
    | fault f => rfl
    | refused r => rfl

theorem symbolOf_symInstr (b : Sym) : symbolOf (symInstr b) = some b := by cases b <;> rfl

theorem exec_symInstr_hunting (s : State) (b : Sym) (h : s.mode = .hunting) :
    exec (symInstr b) s = .next (s.huntShift b) := by
  rw [exec_of_symbol _ b s (symbolOf_symInstr b)]
  simp [State.onSymbol, h]

/-- The window after a run of symbols: the symbols' inverted levels, oldest highest, above them what was there. -/
theorem foldl_shiftWindow_getLsbD (bs : List Sym) (w : Window) (i : Nat) (hi : i < 20) :
    (bs.foldl shiftWindow w).getLsbD i =
      if i < bs.length then !(bs.getD (bs.length - 1 - i) false) else w.getLsbD (i - bs.length) := by
  induction bs generalizing w i with
  | nil => simp
  | cons b bs ih =>
    rw [List.foldl_cons, ih _ i hi]
    simp only [List.length_cons]
    by_cases h1 : i < bs.length
    · have e : bs.length + 1 - 1 - i = (bs.length - 1 - i) + 1 := by omega
      simp only [h1, if_true, show i < bs.length + 1 by omega, e, List.getD_cons_succ]
    · simp only [h1, if_false]
      rw [shiftWindow_getLsbD _ _ _ (by omega)]
      by_cases h2 : i = bs.length
      · subst h2; simp
      · simp only [show ¬ (i - bs.length = 0) by omega, if_false, show ¬ i < bs.length + 1 by omega]
        congr 1

theorem bitsOf_length (v n : Nat) : (bitsOf v n).length = n := by
  induction n <;> simp [bitsOf, *]

theorem bitsOf_getD (v n i : Nat) (h : i < n) : (bitsOf v n).getD i false = v.testBit (n - 1 - i) := by
  induction n generalizing i with
  | zero => omega
  | succ n ih =>
    rcases i with _ | i
    · simp [bitsOf]
    · simp only [bitsOf, List.getD_cons_succ]
      rw [ih i (by omega)]
      congr 1
      omega

theorem preSyms_length (c : Config) : (preSyms c).length = 20 := by simp [preSyms, bitsOf_length]

/-- The lock symbols leave the lock pattern, whatever the window held (R77). -/
theorem foldl_shiftWindow_preSyms (w : Window) (c : Config) : (preSyms c).foldl shiftWindow w = c.preEnc := by
  apply BitVec.eq_of_getLsbD_eq
  intro i hi
  rw [foldl_shiftWindow_getLsbD _ _ _ hi]
  simp only [preSyms_length, hi, if_true]
  have hlen : 20 - 1 - i < (bitsOf c.preEnc.toNat 20).length := by rw [bitsOf_length]; omega
  have h1 : (preSyms c).getD (20 - 1 - i) false = !(bitsOf c.preEnc.toNat 20).getD (20 - 1 - i) false := by
    simp only [preSyms, List.getD_eq_getElem?_getD, List.getElem?_map, List.getElem?_eq_getElem hlen]
    simp
  rw [h1, bitsOf_getD _ _ _ (by omega)]
  simp only [Bool.not_not, show 20 - 1 - (20 - 1 - i) = i by omega]
  rfl

/-- Symbols that never complete the preamble only shift the window. -/
theorem feed_without_match (bs : List Sym) (s : State) (hm : s.mode = .hunting)
    (h : ∀ k, 1 ≤ k → k ≤ bs.length → (bs.take k).foldl shiftWindow s.win ≠ s.cfg.preEnc) :
    feed bs s = .next { s with win := bs.foldl shiftWindow s.win } := by
  induction bs generalizing s with
  | nil => rfl
  | cons b bs ih =>
    have hne : shiftWindow s.win b ≠ s.cfg.preEnc := h 1 (by omega) (by simp)
    have hs : s.huntShift b = { s with win := shiftWindow s.win b } := by simp [State.huntShift, hne]
    simp only [feed, exec_symInstr_hunting s b hm, hs]
    rw [ih { s with win := shiftWindow s.win b } hm fun k h1 h2 => h (k + 1) (by omega) (by simpa using h2)]
    rfl

/-- The two symbols of a bit, at a pair's start, hand that bit to the assembler (R126). -/
theorem feed_bitSyms (s t : State) (b : Bool) (bs : List Sym) (hm : s.mode = .locked) (hp : s.phase = false)
    (h : ({ s with ref := !b, phase := false } : State).assemble b = .ok t) :
    feed (bitSyms b ++ bs) s = feed bs t := by
  have e1 : exec (symInstr (!b)) s = .next (s.pairFirst (!b)) := by
    have : s.onSymbol (!b) = .ok (s.pairFirst (!b)) := by simp only [State.onSymbol, hm, hp]
    rw [exec_of_symbol _ _ s (symbolOf_symInstr (!b)), this]; rfl
  have e2 : exec (symInstr b) (s.pairFirst (!b)) = .next t := by
    have h2 : (s.pairFirst (!b)).onSymbol b = (s.pairFirst (!b)).pairSecond b := by
      simp only [State.onSymbol, State.pairFirst_mode, hm, State.pairFirst_phase]
    have h3 : ({ s.pairFirst (!b) with phase := false } : State) = { s with ref := !b, phase := false } := rfl
    rw [exec_of_symbol _ _ _ (symbolOf_symInstr b), h2, pairSecond_of_ne _ _ (by cases b <;> simp), h3, h]; rfl
  simp only [bitSyms, List.cons_append, List.nil_append, feed, e1, e2]

/-- A byte's symbols are its bits' symbols, bit 7 first (R83). -/
theorem byteSyms_eq (x : Byte) : byteSyms x =
    bitSyms (x.getLsbD 7) ++ (bitSyms (x.getLsbD 6) ++ (bitSyms (x.getLsbD 5) ++ (bitSyms (x.getLsbD 4) ++
      (bitSyms (x.getLsbD 3) ++ (bitSyms (x.getLsbD 2) ++ (bitSyms (x.getLsbD 1) ++
        (bitSyms (x.getLsbD 0) ++ []))))))) := rfl

end Sys2Proof.Machine
end

