-- ==== Sys2Proof/Tests/Slice0.lean ====
section
/-! SUPPORT. Tests of single steps, their expected results taken from spec/95_test_vectors.md or worked out by hand from
the rules named, and for each statement with hypotheses a witness that meets them together. -/

namespace Sys2Proof.Tests

open Sys2Proof Sys2Proof.Machine Sys2Proof.Safety

/-! ### Helpers -/

/-- A view of an answer's next state. -/
def pick {α : Type} (r : Result) (f : State → α) : Option α :=
  match r with
  | .next t => some (f t)
  | .fault _ => none
  | .refused _ => none

/-- The fault of an answer. -/
def faultOf (r : Result) : Option Fault :=
  match r with
  | .next _ => none
  | .fault f => some f
  | .refused _ => none

/-- The refusal of an answer. -/
def refusalOf (r : Result) : Option Refusal :=
  match r with
  | .next _ => none
  | .fault _ => none
  | .refused q => some q

theorem exists_of_pick {α : Type} (r : Result) (f : State → α) (a : α) (h : pick r f = some a) :
    ∃ t, r = .next t ∧ f t = a := by
  cases r with
  | next t => exact ⟨t, rfl, Option.some.inj h⟩
  | fault f => cases h
  | refused q => cases h

/-- Just locked (95 §2.1): the window still holds the lock pattern. -/
def lockedState : State := { State.reset with mode := .locked, win := 0xAAA66#20 }

/-- LOCKED with the bytes `12 FD` stored and one bit of the next byte, a 0 (95 vector A12). -/
def markerState : State :=
  { lockedState with count := 2, acc := 0xFA#8, bitpos := 1#3, buf := [(0, 0x12#8), (1, 0xFD#8)] }

/-- `markerState` with a low first symbol cached: a high one completes the marker. -/
def markerSecond : State := { markerState with phase := true, ref := false }

/-- LOCKED, seven bits of the byte 0x35 taken, its last pair's low first symbol cached, `n` bytes stored. -/
def lastBit (n : Nat) : State :=
  { lockedState with count := n, acc := 0x1A#8, bitpos := 7#3, phase := true, ref := false }

/-- The same with other capacity and tolerance. -/
def withCT (s : State) (c t : Nat) : State := { s with cfg := { s.cfg with capacity := c, tolerance := t } }

/-- A state about to take one IN word. -/
def taking (s : State) (w : InWord) : State := { s with input := [⟨.inp w, none⟩] }

/-! ### WellFormed -/

theorem test_wellFormed_accepts :
    Instr.wellFormed (.byteNonzero 0x01#8) = true ∧ Instr.wellFormed .violationAbort = true ∧
      Instr.wellFormed (.reset 0b11#2) = true ∧ Instr.wellFormed .finalize = true := by decide

/-- R72: 0x00 is BYTE_ZERO, never BYTE_NONZERO. -/
theorem test_illFormed_byteNonzero_zero : Instr.wellFormed (.byteNonzero 0x00#8) = false := by decide

/-! ### Decoding: words written out from the rules, one per row at least -/

/-- R71: the eight IN words. -/
theorem test_decode_in :
    (decodeIn 0b000#3, decodeIn 0b001#3, decodeIn 0b010#3, decodeIn 0b011#3) =
      (.idle false, .idle true, .sym0, .sym1) ∧
    (decodeIn 0b100#3, decodeIn 0b101#3, decodeIn 0b110#3, decodeIn 0b111#3) =
      (.reset 0b00#2, .reset 0b01#2, .reset 0b10#2, .reset 0b11#2) := by decide

/-- R72: 0x00 first, any other byte second. -/
theorem test_decode_byte :
    (decodeByte 0x00#8, decodeByte 0x01#8, decodeByte 0xFF#8) =
      (.byteZero, .byteNonzero 0x01#8, .byteNonzero 0xFF#8) := by decide

/-- R74: `{mode, phase, sym}`. -/
theorem test_decode_key :
    (decodeKey 0b000#3, decodeKey 0b001#3, decodeKey 0b010#3, decodeKey 0b011#3) =
      (.huntShift false false, .huntShift false true, .huntShift true false, .huntShift true true) ∧
    (decodeKey 0b100#3, decodeKey 0b101#3, decodeKey 0b110#3, decodeKey 0b111#3) =
      (.pairFirst false, .pairFirst true, .pairSecond false, .pairSecond true) := by decide

/-- R75: the five patterns, with `eq` clear and set. -/
theorem test_decode_outcome :
    decode (.outcome 0b11000#5) = .ok .violationAbort ∧ decode (.outcome 0b00000#5) = .ok (.bitAccumulate false) ∧
    decode (.outcome 0b10000#5) = .ok (.bitAccumulate true) ∧ decode (.outcome 0b10100#5) = .ok (.resync true) ∧
    decode (.outcome 0b00010#5) = .ok (.byteStore false) ∧ decode (.outcome 0b10011#5) = .ok (.maxlenComplete true) ∧
    decode .internal = .ok .finalize := by decide

/-- R75: 23 of the 32 words are reached by no state; each is rejected by name. -/
theorem test_decode_outcome_rejects :
    ((List.range 32).filter (fun n => !(EncWord.outcome (BitVec.ofNat 5 n)).decodes)).length = 23 ∧
      decode (.outcome 0b11100#5) = .error (.outcomeNotReachable 0b11100#5) := by decide

/-- The table's numbering: 0b110 is a RESET presented with a symbol (95 vector X3). -/
theorem test_decodeTableWord :
    decodeTableWord 8 0b110 = some (.reset 0b10#2) ∧ decodeTableWord 8 0b11000 = some .violationAbort ∧
      decodeTableWord 8 0x80 = some (.byteNonzero 0x80#8) ∧ decodeTableWord 5 0b00010 = some (.byteStore false) ∧
      decodeTableWord 8 0x100 = none := by decide

/-- R77, R78, 95 §1.1: the lock symbols are `01010101010110011001`, and decode to PRE_LOG. -/
theorem test_preamble_constants :
    preSyms Config.reference = [false, true, false, true, false, true, false, true, false, true, false, true, true,
      false, false, true, true, false, false, true] ∧ lpreSyms Config.reference = preSyms Config.reference := by decide

/-- R20: 345 bits of state in the reference configuration. -/
theorem test_stateBits : Config.reference.stateBits = 345 := by decide

/-! ### RESET and IDLE -/

/-- 95 vectors X1, X3: a reset in a frame emits nothing, and does not consume the symbol presented with it. -/
theorem test_reset_in_frame :
    pick (step (taking { lockedState with count := 1, acc := 0x25#8, bitpos := 1#3, buf := [(0, 0x12#8)] } 0b110#3))
      (fun t => (t.mode, t.win, t.count, t.frameOut.isSome)) = some (.hunting, 0x00000#20, 0, false) := by decide

/-- 95 vector X5: an idle between a pair's symbols changes nothing. -/
theorem test_idle_inside_pair :
    pick (step (taking { lockedState with phase := true, ref := true } 0b001#3))
      (fun t => (t.mode, t.phase, t.ref, t.win)) = some (.locked, true, true, 0xAAA66#20) := by decide

/-! ### Symbols and bytes while hunting -/

/-- 95 §2.1, k = 20: the high symbol that completes the preamble. -/
theorem test_sym1_locks :
    pick (exec .sym1 { State.reset with win := 0x55533#20 }) (fun t => (t.mode, t.win, t.phase)) =
      some (.locked, 0xAAA66#20, false) := by decide

/-- 95 §1.2: a low symbol shifts a 1 in. -/
theorem test_sym0_shifts_one :
    pick (exec .sym0 State.reset) (fun t => (t.mode, t.win)) = some (.hunting, 0x00001#20) := by decide

/-- 95 §2.6: byte 0x00 is the low symbol. -/
theorem test_byteZero_is_low :
    pick (exec .byteZero { lockedState with phase := true, ref := true }) (fun t => (t.bitpos, t.acc)) =
      some (1#3, 0x00#8) := by decide

/-- 95 vector Y3: byte 0x02 is the high symbol, though its low bit is clear. -/
theorem test_byteNonzero_is_high :
    pick (exec (.byteNonzero 0x02#8) { lockedState with phase := true, ref := false }) (fun t => (t.bitpos, t.acc)) =
      some (1#3, 0x01#8) := by decide

/-- 95 §1.2: a high symbol shifts a 0 in. -/
theorem test_huntShift_zero :
    pick (exec (.huntShift false true) { State.reset with win := 0x00001#20 }) (fun t => t.win) =
      some 0x00002#20 := by decide

/-- 95 vector H8: with WINDOW_CLEAR_ON_LOCK the window is cleared by the lock. -/
theorem test_huntShift_clears_on_lock :
    pick (exec (.huntShift false true) { State.reset with
      win := 0x55533#20, cfg := { Config.reference with windowClearOnLock := true } }) (fun t => (t.mode, t.win)) =
      some (.locked, 0x00000#20) := by decide

/-! ### Pairs -/

/-- 95 vector B1. -/
theorem test_pairFirst :
    pick (exec (.pairFirst true) lockedState) (fun t => (t.phase, t.ref, t.bitpos)) =
      some (true, true, 0#3) := by decide

/-- 95 §2.2, `(1, 0)`: bit 0. -/
theorem test_pairSecond_bit0 :
    pick (exec (.pairSecond false) { lockedState with phase := true, ref := true })
      (fun t => (t.mode, t.acc, t.bitpos, t.viol)) = some (.locked, 0x00#8, 1#3, 0) := by decide

/-- 95 §2.2, tolerance 1, `(0, 0)`: a tolerated violation gives bit 1. -/
theorem test_pairSecond_tolerated :
    pick (exec (.pairSecond false) (withCT { lockedState with phase := true, ref := false } 38 1))
      (fun t => (t.mode, t.acc, t.bitpos, t.viol)) = some (.locked, 0x01#8, 1#3, 1) := by decide

/-- 95 vector B3: the abort emits the stored byte and drops the partial one. -/
theorem test_violationAbort_emits :
    pick (exec .violationAbort { lockedState with
      count := 1, acc := 0x95#8, bitpos := 3#3, phase := true, ref := true, buf := [(0, 0x12#8)] })
      (fun t => (t.mode, t.frameOut, t.count, t.buf)) =
      some (.hunting, some ⟨1, [0x12#8], false⟩, 0, []) := by decide

/-! ### The assembler's outcomes -/

/-- 95 vector A1: the third bit takes 0x4A to 0x95. -/
theorem test_bitAccumulate :
    pick (exec (.bitAccumulate false) { lockedState with
      count := 1, acc := 0x4A#8, bitpos := 2#3, phase := true, ref := false, buf := [(0, 0x12#8)] })
      (fun t => (t.acc, t.bitpos, t.count, t.phase)) = some (0x95#8, 3#3, 1, false) := by decide

/-- 95 vector A2: the byte 0x12 stored at index 0, and kept in the accumulator. -/
theorem test_byteStore :
    pick (exec (.byteStore false) { lockedState with acc := 0x09#8, bitpos := 7#3, phase := true, ref := true })
      (fun t => (t.buf.read 0, t.count, t.bitpos, t.acc)) = some (0x12#8, 1, 0#3, 0x12#8) := by decide

/-- 95 vector A12: a split at a count of 2 emits the first byte only and stays LOCKED. -/
theorem test_resync_at_two :
    pick (exec (.resync false) markerSecond) (fun t => (t.mode, t.frameOut, t.count, t.bitpos)) =
      some (.locked, some ⟨1, [0x12#8], false⟩, 0, 0#3) := by decide

/-- 95 vector A5: 0xFD at index 0 never splits: the pair accumulates. -/
theorem test_no_split_at_one :
    pick (exec (.pairSecond true) { markerSecond with count := 1, buf := [(0, 0xFD#8)] })
      (fun t => (t.mode, t.frameOut, t.count, t.bitpos)) = some (.locked, none, 1, 2#3) := by decide

/-- 95 vector A16: with C = 1 the first byte ends the frame. -/
theorem test_maxlenComplete_at_one :
    pick (exec (.maxlenComplete false) (withCT (lastBit 0) 1 0)) (fun t => (t.mode, t.frameOut, t.count)) =
      some (.hunting, some ⟨1, [0x35#8], false⟩, 0) := by decide

/-! ### The finalizer and the CRC-16 -/

/-- 95 §2.4: `12 34 0E C9` carries the mark; the mode is the caller's. -/
theorem test_finalize_marks :
    pick (exec .finalize { lockedState with
      count := 4, buf := [(0, 0x12#8), (1, 0x34#8), (2, 0x0E#8), (3, 0xC9#8)] }) (fun t => (t.mode, t.frameOut)) =
      some (.locked, some ⟨4, [0x12#8, 0x34#8, 0x0E#8, 0xC9#8], true⟩) := by decide +kernel

/-- 95 §2.4: `FF FF` has residue 0, but two bytes carry no mark. -/
theorem test_finalize_short :
    pick (exec .finalize { lockedState with count := 2, buf := [(0, 0xFF#8), (1, 0xFF#8)] }) (fun t => t.frameOut) =
      some (some ⟨2, [0xFF#8, 0xFF#8], false⟩) := by decide

/-- R178: the check values of "123456789". -/
theorem test_crc_check_values :
    crc16 false [0x31, 0x32, 0x33, 0x34, 0x35, 0x36, 0x37, 0x38, 0x39] = 0x29B1#16 ∧
      crc16 true [0x31, 0x32, 0x33, 0x34, 0x35, 0x36, 0x37, 0x38, 0x39] = 0x6F91#16 := by decide +kernel

/-- 95 §2.4, both columns. -/
theorem test_crc_table :
    crc16 false [0x12, 0x34, 0xAB, 0xCD] = 0xA20F#16 ∧ crc16 true [0x12, 0x34, 0xAB, 0xCD] = 0x4A87#16 ∧
      crc16 false [0x00] = 0xE1F0#16 ∧ crc16 true [0x00] = 0x0F87#16 ∧ crc16 true [] = 0xFFFF#16 := by decide +kernel

/-- 95 §2.7: the leading zero, the spaces, the newline. -/
theorem test_line :
    Frame.line ⟨2, [0x0A#8, 0xFF#8], false⟩ = ['0', 'a', ' ', 'f', 'f', '\n'] ∧
      Frame.line ⟨1, [0x00#8], true⟩ =
        ['0', '0', ' ', '(', 'C', 'R', 'C', '-', '1', '6', ' ', 'O', 'K', ')', '\n'] := by decide

/-! ### Fetching -/

/-- R33, R34: the two refusals of the fetch. -/
theorem test_configuration_refused :
    refusalOf (step { State.reset with input := [⟨.inp 0b100#3, some { Config.reference with capacity := 0 }⟩] }) =
      some .illegalConfig ∧
    refusalOf (step { State.reset with input := [⟨.inp 0b010#3, some { Config.reference with capacity := 1 }⟩] }) =
      some .configChangeOutsideReset := by decide

/-- R263: a new configuration with a reset, whose window value the reset takes. -/
theorem test_configuration_with_reset :
    pick (step { State.reset with
      input := [⟨.inp 0b100#3, some { Config.reference with windowInit := 0xAAA66#20 }⟩] }) (fun t => t.win) =
      some 0xAAA66#20 := by decide

/-- 95 program P1, its last step: the frame's step number and its end state. -/
theorem test_step_abort :
    pick (step (taking { lockedState with
      stepNo := 86, phase := true, ref := false, count := 4, acc := 0xC9#8,
      buf := [(0, 0x12#8), (1, 0x34#8), (2, 0x0E#8), (3, 0xC9#8)] } 0b010#3))
      (fun t => (t.mode, t.emitted)) =
      some (.hunting, [(87, ⟨4, [0x12#8, 0x34#8, 0x0E#8, 0xC9#8], true⟩)]) := by decide +kernel

/-- Placed as the first instruction after reset, each number is taken by the next step: a RESET, and the five
outcomes. -/
theorem test_withFetchWord_outcomes :
    pick (step (State.reset.withFetchWord 8 0b11000)) (fun t => t.mode) = some .hunting ∧
    pick (step (State.reset.withFetchWord 5 0b00100)) (fun t => (t.mode, t.frameOut.isSome)) = some (.locked, true) ∧
    pick (step (State.reset.withFetchWord 5 0b00010)) (fun t => (t.mode, t.count)) = some (.locked, 1) ∧
    pick (step (State.reset.withFetchWord 5 0b10011)) (fun t => (t.mode, t.frameOut.isSome)) =
      some (.hunting, true) := by decide

/-! ### Witnesses -/

/-- A state inside a frame has the invariant. -/
theorem inv_of_no_frame (s : State) (h1 : s.cfg.Legal) (h2 : s.mode = .locked) (h3 : CountersInRange s)
    (h4 : BufferOk s) (h5 : s.frameOut = none) : Inv s :=
  ⟨h1, fun e => (by rw [h2] at e; cases e), h3, h4, fun f hf => (by rw [h5] at hf; cases hf)⟩

theorem markerSecond_inv : Inv markerSecond :=
  inv_of_no_frame _ (by decide) rfl (by decide) (by decide) rfl

theorem taking_markerSecond_inv : Inv (taking markerSecond 0b011#3) :=
  inv_of_no_frame _ (by decide) rfl (by decide) (by decide) rfl

theorem witness_DecodeOfEncode :
    Instr.wellFormed (.byteNonzero 0x01#8) = true ∧ Instr.wellFormed (.huntShift true false) = true := by decide

theorem witness_EncodeOfDecode :
    decode (.outcome 0b10011#5) = .ok (.maxlenComplete true) ∧ decode (.byte 0xFF#8) = .ok (.byteNonzero 0xFF#8) := by
  decide

theorem witness_StepRunsDecodedInstruction : ∃ rest, (taking markerSecond 0b011#3).input = ⟨.inp 0b011#3, none⟩ :: rest ∧
    decode (PortWord.inp 0b011#3).toEnc = .ok .sym1 ∧ Instr.wellFormed .sym1 = true ∧
    ConfigAccepted (taking markerSecond 0b011#3) ⟨.inp 0b011#3, none⟩ :=
  ⟨[], rfl, rfl, rfl, by decide⟩

theorem witness_StepWithNothingPresentedHolds : markerSecond.input = [] ∧ markerSecond.cfg.Legal := by decide

/-- The illegal value is 0; the least legal one is 1. -/
theorem witness_BadConfigurationIsRefused :
    ¬ ((some { Config.reference with capacity := 0 }).getD lockedState.cfg).Legal ∧
    ((some { Config.reference with capacity := 1 }).getD lockedState.cfg).Legal ∧
    (some { Config.reference with capacity := 1 }).getD lockedState.cfg ≠ lockedState.cfg ∧
    (PortWord.inp 0b011#3).rst = false ∧
    ∃ x, { lockedState with input := [x] }.input = x :: [] :=
  ⟨by decide, by decide, by decide, by decide, ⟨.inp 0b011#3, none⟩, rfl⟩

theorem witness_NoInstructionWritesConfig : ∃ t, exec (.pairSecond true) markerSecond = .next t ∧ t.count = 0 :=
  exists_of_pick _ _ _ (by decide)

theorem witness_IdleChangesNothing : (taking markerSecond 0b001#3).cfg.Legal ∧
    (taking markerSecond 0b001#3).input = ⟨.inp (0b00#2 ++ BitVec.ofBool true), none⟩ :: [] := by decide

theorem witness_SymbolRunsItsKey :
    symbolOf (.byteNonzero 0x80#8) = some true ∧ decode (.key (keyWord markerSecond true)) = .ok (.pairSecond true) ∧
      decode (.key (keyWord State.reset true)) = .ok (.huntShift false true) := by decide

theorem witness_SecondSymbolRunsItsOutcome :
    markerSecond.count ≤ markerSecond.cfg.capacity ∧
      decode (.outcome (outcomeWord markerSecond true)) = .ok (.resync false) ∧
    decode (.outcome (outcomeWord markerSecond false)) = .ok .violationAbort ∧
    decode (.outcome (outcomeWord (lastBit 37) true)) = .ok (.maxlenComplete false) ∧
      (lastBit 37).count ≤ (lastBit 37).cfg.capacity := by decide

theorem witness_BytesActAsTheirSymbols : (0x01#8 : Byte) ≠ 0x00#8 ∧ (0xFF#8 : Byte) ≠ 0x00#8 := by decide

/-- Both clauses: the symbol that completes the preamble, and one bit off it. -/
theorem witness_SymbolWhileHunting :
    symbolOf .sym1 = some true ∧ State.reset.mode = .hunting ∧
    (0x55533#20 : Window).extractLsb' 0 19 ++ BitVec.ofBool (!true) = Config.reference.preEnc ∧
    (0x55533#20 : Window).extractLsb' 0 19 ++ BitVec.ofBool (!false) ≠ Config.reference.preEnc := by decide

theorem witness_SymbolFirstOfPair :
    symbolOf .byteZero = some false ∧ lockedState.mode = .locked ∧ lockedState.phase = false := by decide

theorem witness_HuntShiftLocksOnExactMatch :
    (0x55533#20 : Window).extractLsb' 0 19 ++ BitVec.ofBool (!true) = State.reset.cfg.preEnc ∧
    (0x55532#20 : Window).extractLsb' 0 19 ++ BitVec.ofBool (!true) ≠ State.reset.cfg.preEnc := by decide

theorem witness_PreambleLocks : State.reset.mode = .hunting ∧
    ∀ k < 20, ∃ u, feed ((preSyms State.reset.cfg).take k) State.reset = .next u ∧ u.mode = .hunting := by
  refine ⟨rfl, fun k hk => exists_of_pick _ _ _ ?_⟩
  revert k
  decide

theorem witness_NoLockBeforeTwentySymbols :
    State.reset.mode = .hunting ∧ State.reset.win = 0x00000#20 ∧ State.reset.cfg.preEnc.getLsbD 19 = true ∧
      ((preSyms State.reset.cfg).drop 1).length < 20 := by decide

theorem witness_RelockAfterEighteenSymbols :
    { State.reset with win := 0xAAA66#20 }.mode = .hunting ∧
      { State.reset with win := 0xAAA66#20 }.cfg.preEnc = 0xAAA66#20 ∧
    ((preSyms Config.reference).take 19).length < 20 ∧
      ((preSyms Config.reference).take 19).take 18 ≠ (preSyms Config.reference).drop 2 := by decide

theorem witness_WindowUntouchedWhileLocked : symbolOf .sym1 = some true ∧ markerSecond.mode = .locked ∧
    ∃ t, exec .sym1 markerSecond = .next t ∧ t.count = 0 :=
  ⟨rfl, rfl, exists_of_pick _ _ _ (by decide)⟩

theorem witness_WindowChangesOnlyHuntingOrReset :
    ∃ t, step (taking lockedState 0b100#3) = .next t ∧ t.win ≠ (taking lockedState 0b100#3).win := by
  obtain ⟨t, h, e⟩ := exists_of_pick (step (taking lockedState 0b100#3)) (fun t => t.win) 0x00000#20 (by decide)
  exact ⟨t, h, by rw [show t.win = 0x00000#20 from e]; decide⟩

/-- An empty frame, and a full buffer less one byte. -/
theorem witness_ViolationBeyondToleranceEndsFrame :
    lockedState.count ≤ lockedState.cfg.capacity ∧ lockedState.viol + 1 > lockedState.cfg.tolerance ∧
    lockedState.count = 0 ∧ (lastBit 37).count ≤ (lastBit 37).cfg.capacity ∧
    (lastBit 37).viol + 1 > (lastBit 37).cfg.tolerance ∧ (lastBit 37).count ≠ 0 := by decide

theorem witness_ViolationAbortResult :
    lockedState.count ≤ lockedState.cfg.capacity ∧ (lastBit 38).count ≤ (lastBit 38).cfg.capacity := by decide

theorem witness_ToleratedViolationDecodesFromReference :
    (withCT lockedState 38 1).viol + 1 ≤ (withCT lockedState 38 1).cfg.tolerance := by decide

/-- The second bit of the second byte: no marker at a count of 1. -/
theorem witness_ValidPairGivesSecondLevel :
    true ≠ { markerSecond with count := 1 }.ref ∧ { markerSecond with count := 1 }.bitpos ≠ 7#3 ∧
      ({ markerSecond with count := 1 }.bitpos = 1#3 → { markerSecond with count := 1 }.count < 2) := by decide

theorem witness_ByteStoreResult : (lastBit 37).count < (lastBit 37).cfg.capacity := by decide

/-- The four clauses: a count of C, of C + 1, of 0 and of 1. -/
theorem witness_OutcomesOutsideTheRules :
    (lastBit 38).cfg.capacity ≤ (lastBit 38).count ∧ (lastBit 39).cfg.capacity < (lastBit 39).count ∧
    (lastBit 0).count = 0 ∧ (lastBit 1).count = 1 := by decide

theorem witness_MaxlenCompleteResult : (lastBit 37).count < (lastBit 37).cfg.capacity ∧
    (withCT (lastBit 0) 1 0).count < (withCT (lastBit 0) 1 0).cfg.capacity := by decide

/-- The least count, and a full buffer. -/
theorem witness_ResyncResult :
    2 ≤ markerSecond.count ∧ markerSecond.count ≤ markerSecond.cfg.capacity ∧
    2 ≤ (lastBit 38).count ∧ (lastBit 38).count ≤ (lastBit 38).cfg.capacity := by decide

/-- The premises with a valid pair and with a tolerated violation; the hit; no hit by the count alone; and the last
bit of a byte. -/
theorem witness_MarkerConditionDecidesSplit :
    (¬ (true = markerSecond.ref ∧ markerSecond.viol + 1 > markerSecond.cfg.tolerance) ∧
      markerSecond.count ≤ markerSecond.cfg.capacity) ∧
    ¬ ((withCT markerSecond 38 1).ref = (withCT markerSecond 38 1).ref ∧
      (withCT markerSecond 38 1).viol + 1 > (withCT markerSecond 38 1).cfg.tolerance) ∧
    (markerSecond.bitpos = 1#3 ∧ 2 ≤ markerSecond.count ∧
      markerSecond.buf.read (markerSecond.count - 1) = markerSecond.cfg.preLog.extractLsb' 2 8 ∧
      markerSecond.acc.getLsbD 0 = markerSecond.cfg.preLog.getLsbD 1 ∧
      (!markerSecond.ref) = markerSecond.cfg.preLog.getLsbD 0) ∧
    ¬ 2 ≤ { markerSecond with count := 1 }.count ∧ { markerSecond with count := 1 }.bitpos ≠ 7#3 ∧
    (lastBit 2).bitpos = 7#3 := by decide

/-- Both clauses: the byte that fills the buffer, and the one before it. -/
theorem witness_CapacityDecidesCompletion :
    (¬ (true = (lastBit 37).ref ∧ (lastBit 37).viol + 1 > (lastBit 37).cfg.tolerance) ∧ (lastBit 37).bitpos = 7#3 ∧
      (lastBit 37).count < (lastBit 37).cfg.capacity ∧ (lastBit 37).count + 1 = (lastBit 37).cfg.capacity) ∧
    (¬ (true = (lastBit 36).ref ∧ (lastBit 36).viol + 1 > (lastBit 36).cfg.tolerance) ∧ (lastBit 36).bitpos = 7#3 ∧
      (lastBit 36).count < (lastBit 36).cfg.capacity ∧ (lastBit 36).count + 1 < (lastBit 36).cfg.capacity) := by decide

theorem witness_NoResyncInTwoBytes : Inv (withCT (lastBit 1) 2 0) ∧ (withCT (lastBit 1) 2 0).cfg.capacity ≤ 2 :=
  ⟨inv_of_no_frame _ (by decide) rfl (by decide) (by decide) rfl, by decide⟩

theorem witness_BitsOfFrameAreCounted : (lastBit 36).count ≤ (lastBit 36).cfg.capacity ∧
    decode (.outcome (outcomeWord (lastBit 36) true)) = .ok (.byteStore false) ∧
    ∃ t, exec (.pairSecond true) (lastBit 36) = .next t ∧ t.count = 37 :=
  ⟨by decide, by decide, exists_of_pick _ _ _ (by decide)⟩

/-- A byte after a stored 0xFD that does not start `01` (95 vector A7), at the last place that leaves room. -/
theorem witness_SixteenSymbolsStoreTheirByte :
    let s := { markerState with count := 36, bitpos := 0#3, buf := [(35, 0xFD#8)] }
    s.mode = .locked ∧ s.phase = false ∧ s.bitpos = 0#3 ∧ s.count + 1 < s.cfg.capacity ∧
    ¬ (2 ≤ s.count ∧ s.buf.read (s.count - 1) = s.cfg.preLog.extractLsb' 2 8 ∧
      (0x95#8 : Byte).extractLsb' 6 2 = s.cfg.preLog.extractLsb' 0 2) := by decide

/-- A data byte 0x55 after a stored 0xFD (95 vector A6). -/
theorem witness_MarkerInDataSplitsFrame :
    let s := { markerState with bitpos := 0#3, acc := 0xFD#8 }
    s.mode = .locked ∧ s.phase = false ∧ s.bitpos = 0#3 ∧ 2 ≤ s.count ∧ s.count ≤ s.cfg.capacity ∧
    s.buf.read (s.count - 1) = s.cfg.preLog.extractLsb' 2 8 ∧
    (0x55#8 : Byte).extractLsb' 6 2 = s.cfg.preLog.extractLsb' 0 2 := by decide

/-- A full buffer, and an empty one. -/
theorem witness_FinalizeResult :
    (lastBit 38).count ≤ (lastBit 38).cfg.capacity ∧ (lastBit 0).count ≤ (lastBit 0).cfg.capacity := by decide

/-- A configuration that differs in every field the finalizer does not read. -/
theorem witness_FinalizeReadsOnlyCountAndBuffer :
    (∃ c : Config, c.capacity = markerSecond.cfg.capacity ∧ c.crc16MinLen = markerSecond.cfg.crc16MinLen ∧
      c.crc16Reflected = markerSecond.cfg.crc16Reflected ∧ c.tolerance ≠ markerSecond.cfg.tolerance ∧
      c.preEnc ≠ markerSecond.cfg.preEnc ∧ c.preLog ≠ markerSecond.cfg.preLog) ∧
    ∃ t, exec .finalize markerSecond = .next t ∧ t.frameOut = some ⟨2, [0x12#8, 0xFD#8], false⟩ :=
  ⟨⟨⟨38, 5, 0x00001#20, 0x001#10, 4, false, 0x00001#20, true⟩, by decide⟩, exists_of_pick _ _ _ (by decide)⟩

/-- A step from a state of the invariant that emits a frame. -/
theorem witness_frame_emitted : Inv (taking markerSecond 0b011#3) ∧
    ∃ t, step (taking markerSecond 0b011#3) = .next t ∧ t.frameOut = some ⟨1, [0x12#8], false⟩ :=
  ⟨taking_markerSecond_inv, exists_of_pick _ _ _ (by decide)⟩

theorem witness_MarkExactlyOnZeroResidue : ∃ t f, step (taking markerSecond 0b011#3) = .next t ∧ t.frameOut = some f := by
  obtain ⟨t, h, e⟩ := witness_frame_emitted.2
  exact ⟨t, _, h, e⟩

theorem witness_EmittedFrameFitsBuffer : ∃ s t f, Inv s ∧ step s = .next t ∧ t.frameOut = some f := by
  obtain ⟨t, h, e⟩ := witness_frame_emitted.2
  exact ⟨_, t, _, taking_markerSecond_inv, h, e⟩

theorem witness_FramesComeFromThreeOutcomes : ∃ s t f, Inv s ∧ step s = .next t ∧ t.frameOut = some f :=
  witness_EmittedFrameFitsBuffer

/-- Entering LOCKED, and leaving it by a reset and by a violation. -/
theorem witness_ModeChangesOnlyAsTabled :
    (Inv (taking { State.reset with win := 0x55533#20 } 0b011#3) ∧
      ∃ t, step (taking { State.reset with win := 0x55533#20 } 0b011#3) = .next t ∧ t.mode = .locked) ∧
    (Inv (taking markerSecond 0b100#3) ∧ ∃ t, step (taking markerSecond 0b100#3) = .next t ∧ t.mode = .hunting) ∧
    (Inv (taking markerSecond 0b010#3) ∧ ∃ t, step (taking markerSecond 0b010#3) = .next t ∧ t.mode = .hunting) :=
  ⟨⟨⟨by decide, fun _ => by decide, by decide, by decide, fun f hf => by cases hf⟩, exists_of_pick _ _ _ (by decide)⟩,
   ⟨inv_of_no_frame _ (by decide) rfl (by decide) (by decide) rfl, exists_of_pick _ _ _ (by decide)⟩,
   ⟨inv_of_no_frame _ (by decide) rfl (by decide) (by decide) rfl, exists_of_pick _ _ _ (by decide)⟩⟩

theorem witness_StepKeepsInvariant : ∃ s t, Inv s ∧ step s = .next t ∧ t.frameOut ≠ none := by
  obtain ⟨t, h, e⟩ := witness_frame_emitted.2
  exact ⟨_, t, taking_markerSecond_inv, h, by rw [e]; decide⟩

theorem witness_EveryStepCompletes : Inv (taking markerSecond 0b011#3) ∧
    ∀ x rest, (taking markerSecond 0b011#3).input = x :: rest → ConfigAccepted (taking markerSecond 0b011#3) x := by
  refine ⟨taking_markerSecond_inv, fun x rest h => ?_⟩
  obtain rfl : (⟨.inp 0b011#3, none⟩ : Transaction) = x := by injection h
  decide

theorem witness_InstructionsKeepBufferCanonical : (lastBit 0).buf.wf = true ∧
    ∃ t, exec (.byteStore false) (lastBit 0) = .next t ∧ t.buf = [(0, 0x35#8)] :=
  ⟨by decide, exists_of_pick _ _ _ (by decide)⟩

/-- Two states that differ in all three unread places. -/
theorem witness_UnreadStateIsUnobservable :
    ∃ t, SameToObserver markerState t ∧ t.ref ≠ markerState.ref ∧ t.acc ≠ markerState.acc ∧ t.buf ≠ markerState.buf := by
  refine ⟨{ markerState with ref := true, acc := 0x02#8, buf := [(0, 0x12#8), (1, 0xFD#8), (2, 0x99#8)] },
    ⟨rfl, rfl, rfl, fun h => (by cases h), ?_, rfl, rfl, rfl, ?_, rfl, rfl, rfl, rfl⟩, by decide, by decide, by decide⟩
  · show ∀ i, i < 1 → _; decide
  · show ∀ i, i < 2 → _; decide

/-- Two transactions, the second of which begins a new frame: the first ends a frame. -/
theorem witness_RunTakesEveryTransaction :
    let s := { markerSecond with input := [⟨.inp 0b011#3, none⟩, ⟨.byte 0x00#8, none⟩] }
    Inv s ∧ AllAccepted s.cfg s.input ∧ (1, ⟨1, [0x12#8], false⟩) ∈ s.run.frames :=
  ⟨inv_of_no_frame _ (by decide) rfl (by decide) (by decide) rfl,
    ⟨by decide, .inl rfl, by decide, .inl rfl, trivial⟩, by decide⟩

/-- One byte stored and a second symbol that only accumulates. -/
theorem witness_PartialFrameIsKeptNotEmitted :
    let s := taking { markerSecond with count := 1, buf := [(0, 0x12#8)] } 0b011#3
    Inv s ∧ s.mode = .locked ∧ AllAccepted s.cfg s.input ∧ (∀ x ∈ s.input, x.word.rst = false) ∧
    ∀ j u x rest b, j < s.input.length → (observe j s).final = .next u → u.input = x :: rest →
      symbolOf (decodePort x.word) = some b → u.phase = true →
      ∃ e, decode (.outcome (outcomeWord u b)) = .ok (.bitAccumulate e) ∨
        decode (.outcome (outcomeWord u b)) = .ok (.byteStore e) := by
  refine ⟨inv_of_no_frame _ (by decide) rfl (by decide) (by decide) rfl, rfl, ⟨by decide, .inl rfl, trivial⟩,
    by decide, fun j u x rest b hj hu hx hb _ => ?_⟩
  obtain rfl : j = 0 := by simpa [taking] using hj
  obtain rfl := Host.Outcome.next.inj hu
  obtain rfl : (⟨.inp 0b011#3, none⟩ : Transaction) = x := by injection hx
  obtain rfl : true = b := Option.some.inj hb
  exact ⟨false, .inl (by decide)⟩

/-- A state of the invariant that drives a frame of one byte. -/
theorem witness_PortsDriveTheFrame :
    Inv { State.reset with frameOut := some ⟨1, [0x12#8], false⟩ } ∧ (0 : Nat) < 1 := by
  refine ⟨⟨by decide, fun _ => by decide, by decide, by decide, fun f hf => ?_⟩, by decide⟩
  obtain rfl : (⟨1, [0x12#8], false⟩ : Frame) = f := by injection hf
  exact ⟨by decide, by decide, by decide, by decide⟩

theorem witness_LineDeterminesFrame : ∃ f g : Frame, f.bytes ≠ [] ∧ g.bytes ≠ [] ∧ f.line = g.line :=
  ⟨⟨1, [0x0A#8], true⟩, ⟨1, [0x0A#8], true⟩, by decide, by decide, rfl⟩

end Sys2Proof.Tests
end

section
/-! What a step answers with nothing presented, and the fetch's two refusals, as equations (R33, R34, R203); and the
driver loop's dispatch of a symbol, case by case (R200). -/

namespace Sys2Proof.Proofs

open Sys2Proof.Machine Sys2Proof.Safety

/-- With nothing presented a step waits, unless the configuration in force is illegal (R34). -/
theorem step_of_nil (s : State) (hin : s.input = []) :
    step s = if s.cfg.Legal then .next { s with frameOut := none, stepNo := s.stepNo + 1 }
      else .refused .illegalConfig := by
  by_cases hl : s.cfg.Legal
  · simp [step, State.fetch, hin, State.configure, hl, exec, execIdle, State.beginStep]
  · simp [step, State.fetch, hin, State.configure, hl]

theorem step_of_illegal (s : State) (x : Transaction) (rest : List Transaction) (hin : s.input = x :: rest)
    (hl : ¬ (x.cfg.getD s.cfg).Legal) : step s = .refused .illegalConfig := by
  simp only [step, State.fetch, hin, State.configure, hl, not_false_eq_true, if_true]

theorem step_of_change_without_rst (s : State) (x : Transaction) (rest : List Transaction)
    (hin : s.input = x :: rest) (hl : (x.cfg.getD s.cfg).Legal) (hc : x.cfg.getD s.cfg ≠ s.cfg)
    (hr : x.word.rst = false) : step s = .refused .configChangeOutsideReset := by
  simp only [step, State.fetch, hin, State.configure, hl, not_true_eq_false, if_false, if_pos (And.intro hc hr)]

/-- Settles O7: the fetch's two refusals. -/
theorem badConfigurationIsRefused : Obligations.BadConfigurationIsRefused := fun s x rest hin =>
  ⟨step_of_illegal s x rest hin, step_of_change_without_rst s x rest hin⟩

/-- A transaction is accepted, or one of the fetch's two reasons to refuse it holds. -/
theorem accepted_or_refused (s : State) (x : Transaction) :
    ConfigAccepted s x ∨ ¬ (x.cfg.getD s.cfg).Legal ∨
      ((x.cfg.getD s.cfg).Legal ∧ x.cfg.getD s.cfg ≠ s.cfg ∧ x.word.rst = false) := by
  by_cases hl : (x.cfg.getD s.cfg).Legal
  · by_cases hc : x.cfg.getD s.cfg = s.cfg
    · exact .inl ⟨hl, .inl hc⟩
    · cases hr : x.word.rst
      · exact .inr (.inr ⟨hl, hc, rfl⟩)
      · exact .inl ⟨hl, .inr hr⟩
  · exact .inr (.inl hl)

theorem onSymbol_hunting (s : State) (b : Sym) (hm : s.mode = .hunting) : s.onSymbol b = .ok (s.huntShift b) := by
  simp only [State.onSymbol, hm]

theorem onSymbol_first (s : State) (b : Sym) (hm : s.mode = .locked) (hp : s.phase = false) :
    s.onSymbol b = .ok (s.pairFirst b) := by
  simp only [State.onSymbol, hm, hp]

theorem onSymbol_second (s : State) (b : Sym) (hm : s.mode = .locked) (hp : s.phase = true) :
    s.onSymbol b = s.pairSecond b := by
  simp only [State.onSymbol, hm, hp]

/-- A second symbol takes its pair, and then ends the frame or hands the reference's bit to the assembler (R122 to
R125). -/
theorem pairSecond_eq (s : State) (b : Sym) :
    s.pairSecond b = if flagTrip s b then (s.takePair true).endFrame
      else (s.takePair (flagEq s b)).assemble (manBit s.ref) := by
  by_cases h : b = s.ref ∧ s.viol + 1 > s.cfg.tolerance
  · obtain ⟨rfl, hv⟩ := h
    rw [pairSecond_of_eq, if_pos hv, if_pos (by simp [flagTrip, flagEq, hv])]
    rfl
  · rw [pairSecond_of_not_trip s b h, if_neg (by simpa [flagTrip, flagEq] using h)]
    rfl

end Sys2Proof.Proofs
end

section
/-! The state no step reads: each operation of the machine, run from two states that `SameToObserver` relates, gives
related results (R25, R26, R30, R146). Where an operation ends in DS_reset the two results are equal. -/

namespace Sys2Proof.Proofs

open Sys2Proof.Machine Sys2Proof.Safety

variable {s t : State}

theorem sameToObserver_refl (s : State) : SameToObserver s s :=
  ⟨rfl, rfl, rfl, fun _ => rfl, fun _ _ => rfl, rfl, rfl, rfl, fun _ _ => rfl, rfl, rfl, rfl, rfl⟩

theorem sameAnswer_of_eq {r q : Result} (h : r = q) : SameAnswer r q := by
  subst h
  cases r with
  | next s => exact sameToObserver_refl s
  | fault f => exact rfl
  | refused r => exact rfl

/-- DS_reset overwrites every place in which related states may differ. -/
theorem dsReset_eq (h : SameToObserver s t) : s.dsReset = t.dsReset := by
  simp only [State.dsReset, h.mode, h.win, h.cfg, h.input, h.frameOut, h.stepNo]

theorem heldFrame_eq (h : SameToObserver s t) {n : Nat} (hn : n ≤ s.count) : heldFrame s n = heldFrame t n := by
  have hb : (List.range n).map (fun i => s.buf.read i) = (List.range n).map (fun i => t.buf.read i) :=
    List.map_congr_left fun i hi => h.buf i (by have := List.mem_range.1 hi; omega)
  simp only [heldFrame, hb, h.cfg]

/-- finalize reads `count`, the stored bytes and the configuration, and resets the rest (R173). -/
theorem finalize_eq (h : SameToObserver s t) : s.finalize = t.finalize := by
  have hc := h.count
  have hcap : s.cfg.capacity = t.cfg.capacity := by rw [h.cfg]
  rcases Nat.lt_or_ge s.cfg.capacity s.count with hgt | hle
  · rw [finalize_of_gt s hgt, finalize_of_gt t (by omega), hcap]
  · have hf : heldFrame s t.count = heldFrame t t.count := heldFrame_eq h (by omega)
    rw [finalize_of_le s hle, finalize_of_le t (by omega)]
    exact congrArg Except.ok (dsReset_eq { h with frameOut := by simp only [hf, hc, h.frameOut] })

theorem endFrame_eq (h : SameToObserver s t) : s.endFrame = t.endFrame := by
  simp only [State.endFrame, finalize_eq h]

theorem splitFrame_eq (h : SameToObserver s t) : s.splitFrame = t.splitFrame := by
  have hf : ({ s with count := s.count - 1 } : State).finalize = ({ t with count := t.count - 1 } : State).finalize :=
    finalize_eq { h with
      count := congrArg (· - 1) h.count
      buf := fun i hi => h.buf i (Nat.lt_of_lt_of_le hi (Nat.sub_le _ _)) }
  rw [State.splitFrame, State.splitFrame, hf, h.count]

/-- The resync test reads a stored byte and the two bits the accumulator holds then (R143). -/
theorem resyncHit_eq (h : SameToObserver s t) : s.resyncHit = t.resyncHit := by
  by_cases hc : t.bitpos = 2#3 ∧ 2 ≤ t.count
  · obtain ⟨hb, h2⟩ := hc
    have hread : s.buf.read (t.count - 1) = t.buf.read (t.count - 1) := h.buf _ (by have := h.count; omega)
    have hacc : s.acc.extractLsb' 0 2 = t.acc.extractLsb' 0 2 := by
      refine BitVec.eq_of_getLsbD_eq fun i hi => ?_
      have := h.acc i (by rw [h.bitpos, hb]; exact hi)
      simpa [hi] using this
    simp only [State.resyncHit, State.bufRead, h.bitpos, h.count, h.cfg, hread, hacc]
  · simp only [State.resyncHit, h.bitpos, h.count, if_neg hc]

/-- A shift brings in the new bit and keeps the agreeing bits, one place up. -/
theorem shiftIn_acc_getLsbD (h : SameToObserver s t) (bit : Bool) (i : Nat) (hi : i ≤ s.bitpos.toNat) :
    (s.shiftIn bit).acc.getLsbD i = (t.shiftIn bit).acc.getLsbD i := by
  have hlt : i < 8 := Nat.lt_of_le_of_lt hi s.bitpos.isLt
  rw [State.shiftIn_acc, State.shiftIn_acc, shiftAcc_getLsbD _ _ _ hlt, shiftAcc_getLsbD _ _ _ hlt]
  by_cases h0 : i = 0
  · simp only [h0, if_true]
  · simp only [h0, if_false]
    exact h.acc (i - 1) (by omega)

theorem shiftIn_same (h : SameToObserver s t) (bit : Bool) : SameToObserver (s.shiftIn bit) (t.shiftIn bit) :=
  { h with
    acc := fun i hi => shiftIn_acc_getLsbD h bit i (by
      have : (s.bitpos + 1).toNat ≤ s.bitpos.toNat + 1 := by rw [BitVec.toNat_add]; exact Nat.mod_le _ _
      simp only [State.shiftIn_bitpos] at hi
      omega)
    bitpos := congrArg (· + 1) h.bitpos }

/-- The shift that completes a byte leaves no old bit in the accumulator (R26). -/
theorem shiftIn_acc_eq (h : SameToObserver s t) (bit : Bool) (hb : (s.shiftIn bit).bitpos = 0#3) :
    (s.shiftIn bit).acc = (t.shiftIn bit).acc := by
  have h7 : s.bitpos.toNat = 7 := by
    simp only [State.shiftIn_bitpos] at hb
    bv_omega
  exact BitVec.eq_of_getLsbD_eq fun i hi => shiftIn_acc_getLsbD h bit i (by omega)

/-- The byte store writes the accumulator's byte at index `count`, which the next count includes (R146). -/
theorem storeByte_same (h : SameToObserver s t) (ha : s.acc = t.acc) :
    SameAnswer (answerOf s.storeByte) (answerOf t.storeByte) := by
  have hc := h.count
  have hcap : s.cfg.capacity = t.cfg.capacity := by rw [h.cfg]
  rcases Nat.lt_or_ge s.count s.cfg.capacity with hlt | hge
  · rw [storeByte_of_lt s hlt, storeByte_of_lt t (by omega)]
    exact { h with
      count := congrArg (· + 1) hc
      buf := fun i hi => by
        simp only [Memory.read_write, hc, ha]
        split
        · rfl
        · exact h.buf i (by simp only at hi; omega) }
  · rw [storeByte_of_ge s hge, storeByte_of_ge t (by omega), hc]
    exact rfl

theorem assemble_same (h : SameToObserver s t) (bit : Bool) :
    SameAnswer (answerOf (s.assemble bit)) (answerOf (t.assemble bit)) := by
  have hs := shiftIn_same h bit
  simp only [State.assemble, resyncHit_eq hs]
  cases (t.shiftIn bit).resyncHit with
  | error f => exact rfl
  | ok hit =>
    cases hit with
    | true => exact sameAnswer_of_eq (congrArg answerOf (splitFrame_eq hs))
    | false =>
      by_cases hb : (s.shiftIn bit).bitpos = 0#3
      · have hst := storeByte_same hs (shiftIn_acc_eq h bit hb)
        simp only [hb, hs.bitpos ▸ hb, if_true]
        generalize (s.shiftIn bit).storeByte = r, (t.shiftIn bit).storeByte = q at hst
        match r, q, hst with
        | .error f, .error g, hst => exact hst
        | .ok u, .ok v, (hst : SameToObserver u v) =>
          have hc : (u.count = u.cfg.capacity) = (v.count = v.cfg.capacity) := by rw [hst.count, hst.cfg]
          simp only [hc, endFrame_eq hst]
          split
          · exact sameAnswer_of_eq rfl
          · exact hst
      · have hb' : (t.shiftIn bit).bitpos ≠ 0#3 := hs.bitpos ▸ hb
        simp only [if_neg hb, if_neg hb']
        exact hs

theorem takePair_same (h : SameToObserver s t) (e : Bool) : SameToObserver (s.takePair e) (t.takePair e) :=
  { h with phase := rfl, ref := fun hp => absurd hp Bool.false_ne_true, viol := congrArg (· + e.toNat) h.viol }

/-- A second symbol reads the reference while `phase = 1`, when related states agree on it (R25). -/
theorem pairSecond_same (h : SameToObserver s t) (hp : s.phase = true) (b : Sym) :
    SameAnswer (answerOf (s.pairSecond b)) (answerOf (t.pairSecond b)) := by
  have hr := h.ref hp
  have htrip : flagTrip s b = flagTrip t b := by simp only [flagTrip, flagEq, hr, h.viol, h.cfg]
  rw [pairSecond_eq, pairSecond_eq, htrip]
  split
  · exact sameAnswer_of_eq (congrArg answerOf (endFrame_eq (takePair_same h true)))
  · rw [flagEq, flagEq, hr]
    exact assemble_same (takePair_same h _) _

theorem huntShift_same (h : SameToObserver s t) (b : Sym) : SameToObserver (s.huntShift b) (t.huntShift b) := by
  have hw : SameToObserver { s with win := shiftWindow s.win b } { t with win := shiftWindow t.win b } :=
    { h with win := congrArg (shiftWindow · b) h.win }
  rcases huntShift_cases s b with ⟨hm, hs⟩ | ⟨hm, hs⟩ <;> rw [h.win, h.cfg] at hm <;> rw [hs]
  · have ht : t.huntShift b = ({ t with win := shiftWindow t.win b } : State).lock := by
      simp only [State.huntShift, hm, if_true]
    rw [ht]
    simp only [State.lock, dsReset_eq hw]
    exact sameToObserver_refl _
  · have ht : t.huntShift b = { t with win := shiftWindow t.win b } := by
      simp only [State.huntShift, hm, if_false]
    rw [ht]
    exact hw

theorem onSymbol_same (h : SameToObserver s t) (b : Sym) :
    SameAnswer (answerOf (s.onSymbol b)) (answerOf (t.onSymbol b)) := by
  cases hm : s.mode with
  | hunting =>
    rw [onSymbol_hunting s b hm, onSymbol_hunting t b (h.mode ▸ hm)]
    exact huntShift_same h b
  | locked =>
    cases hp : s.phase with
    | false =>
      rw [onSymbol_first s b hm hp, onSymbol_first t b (h.mode ▸ hm) (h.phase ▸ hp)]
      exact { h with phase := rfl, ref := fun _ => rfl }
    | true =>
      rw [onSymbol_second s b hm hp, onSymbol_second t b (h.mode ▸ hm) (h.phase ▸ hp)]
      exact pairSecond_same h hp b

theorem exec_decodePort_same (h : SameToObserver s t) (w : PortWord) :
    SameAnswer (exec (decodePort w) s) (exec (decodePort w) t) := by
  rcases decodePort_cases w with ⟨-, x, hx⟩ | ⟨-, x, hx⟩ | ⟨-, b, hb⟩
  · rw [hx]
    have hr : s.resetCore = t.resetCore :=
      dsReset_eq { h with mode := rfl, win := congrArg Config.windowInit h.cfg }
    exact sameAnswer_of_eq (congrArg Host.Outcome.next hr)
  · rw [hx]
    exact h
  · rw [exec_of_symbol _ b s hb, exec_of_symbol _ b t hb]
    exact onSymbol_same h b

theorem stateAtExec_same (h : SameToObserver s t) (x : Transaction) (rest : List Transaction) :
    SameToObserver (stateAtExec s x rest) (stateAtExec t x rest) :=
  { h with
    cfg := congrArg (x.cfg.getD ·) h.cfg
    input := rfl
    frameOut := rfl
    stepNo := congrArg (· + 1) h.stepNo }

/-- Settles O51, operation by operation: what a step reads, related states agree on. -/
theorem unreadStateIsUnobservable : Obligations.UnreadStateIsUnobservable := by
  intro s t h
  cases hin : s.input with
  | nil =>
    rw [step_of_nil s hin, step_of_nil t (h.input ▸ hin)]
    by_cases hl : s.cfg.Legal
    · rw [if_pos hl, if_pos (h.cfg ▸ hl)]
      exact { h with frameOut := rfl, stepNo := congrArg (· + 1) h.stepNo }
    · rw [if_neg hl, if_neg (h.cfg ▸ hl)]
      exact rfl
  | cons x rest =>
    have hin' : t.input = x :: rest := h.input ▸ hin
    rcases accepted_or_refused s x with ha | hl | ⟨hl, hc, hr⟩
    · have ha' : ConfigAccepted t x := by simp only [ConfigAccepted, ← h.cfg]; exact ha
      rw [step_of_accepted s x rest hin ha, step_of_accepted t x rest hin' ha']
      exact exec_decodePort_same (stateAtExec_same h x rest) x.word
    · rw [step_of_illegal s x rest hin hl, step_of_illegal t x rest hin' (h.cfg ▸ hl)]
      exact rfl
    · rw [step_of_change_without_rst s x rest hin hl hc hr,
        step_of_change_without_rst t x rest hin' (h.cfg ▸ hl) (h.cfg ▸ hc) hr]
      exact rfl

end Sys2Proof.Proofs
end

section
/-! What an operation that answers has done: the inversions of the operations that can fault, down to the second
symbol of a pair, and with them what no instruction writes (R7, R33). -/

namespace Sys2Proof.Proofs

open Sys2Proof.Machine Sys2Proof.Safety

variable {s t : State}

theorem endFrame_ok (h : s.endFrame = .ok t) : t = State.dsReset { s with
    mode := .hunting, frameOut := if s.count = 0 then s.frameOut else some (heldFrame s s.count) } := by
  rcases Nat.lt_or_ge s.cfg.capacity s.count with hgt | hle
  · rw [endFrame_of_gt s hgt] at h; cases h
  · rw [endFrame_of_le s hle] at h; exact (Except.ok.inj h).symm

theorem splitFrame_ok (h : s.splitFrame = .ok t) :
    s.count ≠ 0 ∧ ({ s with count := s.count - 1 } : State).finalize = .ok t := by
  by_cases h0 : s.count = 0
  · rw [State.splitFrame, if_pos h0] at h; cases h
  · rw [State.splitFrame, if_neg h0] at h; exact ⟨h0, h⟩

theorem storeByte_ok (h : s.storeByte = .ok t) : s.count < s.cfg.capacity ∧
    t = { s with buf := s.buf.write s.count s.acc, count := s.count + 1 } := by
  rcases Nat.lt_or_ge s.count s.cfg.capacity with hlt | hge
  · rw [storeByte_of_lt s hlt] at h; exact ⟨hlt, (Except.ok.inj h).symm⟩
  · rw [storeByte_of_ge s hge] at h; cases h

theorem completeFrame_ok (h : s.completeFrame = .ok t) :
    ∃ u, s.storeByte = .ok u ∧ u.endFrame = .ok t := by
  rw [State.completeFrame] at h
  cases hs : s.storeByte with
  | error f => rw [hs] at h; cases h
  | ok u => rw [hs] at h; exact ⟨u, rfl, h⟩

/-- ASSEMBLE that answers has split, completed, stored or only accumulated (R140). -/
theorem assemble_ok {bit : Bool} (h : s.assemble bit = .ok t) :
    (s.shiftIn bit).splitFrame = .ok t ∨
    (s.bitpos + 1 = 0#3 ∧ s.count + 1 = s.cfg.capacity ∧ (s.shiftIn bit).completeFrame = .ok t) ∨
    (s.shiftIn bit).storeByte = .ok t ∨ t = s.shiftIn bit := by
  simp only [State.assemble] at h
  cases hr : (s.shiftIn bit).resyncHit with
  | error f => rw [hr] at h; cases h
  | ok hit =>
    rw [hr] at h
    cases hit with
    | true => exact .inl h
    | false =>
      by_cases hb : (s.shiftIn bit).bitpos = 0#3
      · simp only [if_pos hb] at h
        cases hst : (s.shiftIn bit).storeByte with
        | error f => rw [hst] at h; cases h
        | ok u =>
          simp only [hst] at h
          by_cases hc : u.count = u.cfg.capacity
          · rw [if_pos hc] at h
            obtain ⟨-, rfl⟩ := storeByte_ok hst
            exact .inr (.inl ⟨hb, hc, by simp only [State.completeFrame, hst, h]⟩)
          · rw [if_neg hc] at h
            exact .inr (.inr (.inl h))
      · simp only [if_neg hb] at h
        exact .inr (.inr (.inr (Except.ok.inj h).symm))

/-- A second symbol that answers has ended in one of the five outcomes of R75; beyond the tolerance in the abort, and in
MAXLEN_COMPLETE only where the OUTCOME word says `full`. -/
theorem pairSecond_ok {b : Sym} (h : s.pairSecond b = .ok t) :
    (flagTrip s b = true ∧ (s.takePair true).endFrame = .ok t) ∨
    (s.decodePair (flagEq s b)).splitFrame = .ok t ∨
    (flagFull s b = true ∧ (s.decodePair (flagEq s b)).completeFrame = .ok t) ∨
    (s.decodePair (flagEq s b)).storeByte = .ok t ∨ t = s.decodePair (flagEq s b) := by
  rw [pairSecond_eq] at h
  cases ht : flagTrip s b
  · rw [ht, if_neg Bool.false_ne_true] at h
    rcases assemble_ok h with h | ⟨hb, hc, h⟩ | h | h
    · exact .inr (.inl h)
    · have hb' : bitposNext s = 0#3 := hb
      have hc' : s.count + 1 = s.cfg.capacity := hc
      exact .inr (.inr (.inl ⟨by simp [flagFull, flagBc, ht, hb', hc'], h⟩))
    · exact .inr (.inr (.inr (.inl h)))
    · exact .inr (.inr (.inr (.inr h)))
  · rw [ht, if_pos rfl] at h
    exact .inl ⟨rfl, h⟩

theorem sameEnvironment_trans {u : State} (h : SameEnvironment s t) (h' : SameEnvironment t u) :
    SameEnvironment s u := by
  obtain ⟨hc, hi, hn⟩ := h
  obtain ⟨hc', hi', hn'⟩ := h'
  exact ⟨hc'.trans hc, hi'.trans hi, hn'.trans hn⟩

theorem finalize_sameEnvironment (h : s.finalize = .ok t) : SameEnvironment s t := by
  obtain ⟨-, rfl⟩ := finalize_ok s t h
  exact ⟨rfl, rfl, rfl⟩

theorem endFrame_sameEnvironment (h : s.endFrame = .ok t) : SameEnvironment s t := by
  rw [endFrame_ok h]
  exact ⟨rfl, rfl, rfl⟩

theorem splitFrame_sameEnvironment (h : s.splitFrame = .ok t) : SameEnvironment s t := by
  obtain ⟨-, hf⟩ := splitFrame_ok h
  exact finalize_sameEnvironment (s := { s with count := s.count - 1 }) hf

theorem storeByte_sameEnvironment (h : s.storeByte = .ok t) : SameEnvironment s t := by
  obtain ⟨-, rfl⟩ := storeByte_ok h
  exact ⟨rfl, rfl, rfl⟩

theorem completeFrame_sameEnvironment (h : s.completeFrame = .ok t) : SameEnvironment s t := by
  obtain ⟨u, hs, he⟩ := completeFrame_ok h
  exact sameEnvironment_trans (storeByte_sameEnvironment hs) (endFrame_sameEnvironment he)

theorem huntShift_sameEnvironment (s : State) (b : Sym) : SameEnvironment s (s.huntShift b) := by
  rcases huntShift_cases s b with ⟨-, h⟩ | ⟨-, h⟩ <;> rw [h] <;> exact ⟨rfl, rfl, rfl⟩

theorem pairSecond_sameEnvironment {b : Sym} (h : s.pairSecond b = .ok t) : SameEnvironment s t := by
  rcases pairSecond_ok h with ⟨-, h⟩ | h | ⟨-, h⟩ | h | rfl
  · exact endFrame_sameEnvironment (s := s.takePair true) h
  · exact splitFrame_sameEnvironment (s := s.decodePair (flagEq s b)) h
  · exact completeFrame_sameEnvironment (s := s.decodePair (flagEq s b)) h
  · exact storeByte_sameEnvironment (s := s.decodePair (flagEq s b)) h
  · exact ⟨rfl, rfl, rfl⟩

theorem onSymbol_sameEnvironment {b : Sym} (h : s.onSymbol b = .ok t) : SameEnvironment s t := by
  cases hm : s.mode with
  | hunting =>
    rw [onSymbol_hunting s b hm] at h
    rw [← Except.ok.inj h]
    exact huntShift_sameEnvironment s b
  | locked =>
    cases hp : s.phase with
    | false =>
      rw [onSymbol_first s b hm hp] at h
      rw [← Except.ok.inj h]
      exact ⟨rfl, rfl, rfl⟩
    | true => exact pairSecond_sameEnvironment (onSymbol_second s b hm hp ▸ h)

/-- Settles O8, by the instruction: each is one of the operations above. -/
theorem noInstructionWritesConfig : Obligations.NoInstructionWritesConfig := by
  intro i s t h
  have ok_of {r : Except Fault State} (hr : answerOf r = .next t) : r = .ok t := (answerOf_next r t).1 hr
  cases i with
  | reset x => rw [← Host.Outcome.next.inj h]; exact ⟨rfl, rfl, rfl⟩
  | idle x => rw [← Host.Outcome.next.inj h]; exact ⟨rfl, rfl, rfl⟩
  | sym0 => exact onSymbol_sameEnvironment (ok_of h)
  | sym1 => exact onSymbol_sameEnvironment (ok_of h)
  | byteZero => exact onSymbol_sameEnvironment (ok_of h)
  | byteNonzero b => exact onSymbol_sameEnvironment (ok_of h)
  | huntShift x b => rw [← Host.Outcome.next.inj h]; exact huntShift_sameEnvironment s b
  | pairFirst b => rw [← Host.Outcome.next.inj h]; exact ⟨rfl, rfl, rfl⟩
  | pairSecond b => exact pairSecond_sameEnvironment (ok_of h)
  | violationAbort => exact endFrame_sameEnvironment (s := s.takePair true) (ok_of h)
  | bitAccumulate e => rw [← Host.Outcome.next.inj h]; exact ⟨rfl, rfl, rfl⟩
  | resync e => exact splitFrame_sameEnvironment (s := s.decodePair e) (ok_of h)
  | byteStore e => exact storeByte_sameEnvironment (s := s.decodePair e) (ok_of h)
  | maxlenComplete e => exact completeFrame_sameEnvironment (s := s.decodePair e) (ok_of h)
  | finalize => exact finalize_sameEnvironment (ok_of h)

end Sys2Proof.Proofs
end

section
/-! When a symbol changes the mode (R21, R204): the match that locks, and the two outcomes that end LOCKED. -/

namespace Sys2Proof.Proofs

open Sys2Proof.Machine Sys2Proof.Safety

variable {s t : State} {b : Sym}

theorem fresh_lock (s : State) : Fresh s.lock := ⟨rfl, rfl, rfl, rfl, rfl, rfl, rfl⟩

theorem huntShift_locks (hm : s.mode = .hunting) (ht : (s.huntShift b).mode = .locked) :
    Fresh (s.huntShift b) ∧ shiftWindow s.win b = s.cfg.preEnc := by
  rcases huntShift_cases s b with ⟨hw, h⟩ | ⟨-, h⟩
  · rw [h]; exact ⟨fresh_lock _, hw⟩
  · rw [h] at ht; exact absurd (hm.symm.trans ht) (by decide)

/-- Only an abort or a full buffer moves a second symbol's mode (R123, R144, R147). -/
theorem pairSecond_mode (h : s.pairSecond b = .ok t) :
    t.mode = s.mode ∨ flagTrip s b = true ∨ flagFull s b = true := by
  rcases pairSecond_ok h with ⟨ht, -⟩ | h | ⟨hf, -⟩ | h | h
  · exact .inr (.inl ht)
  · obtain ⟨-, hf⟩ := splitFrame_ok h
    obtain ⟨-, rfl⟩ := finalize_ok _ _ hf
    exact .inl rfl
  · exact .inr (.inr hf)
  · obtain ⟨-, rfl⟩ := storeByte_ok h
    exact .inl rfl
  · rw [h]; exact .inl rfl

theorem decode_of_flagTrip (h : flagTrip s b = true) :
    decode (.outcome (outcomeWord s b)) = .ok .violationAbort := by
  rw [decode_outcomeWord, if_pos h]

/-- `full` excludes `trip` and `rs`: it stands at a byte boundary of a decoded bit (R75). -/
theorem decode_of_flagFull (h : flagFull s b = true) :
    decode (.outcome (outcomeWord s b)) = .ok (.maxlenComplete (flagEq s b)) := by
  obtain ⟨⟨ht, hb⟩, -⟩ : (flagTrip s b = false ∧ bitposNext s = 0#3) ∧ s.count + 1 = s.cfg.capacity := by
    simpa [flagFull, flagBc] using h
  have hrs : flagRs s b = false := by simp [flagRs, hb]
  rw [decode_outcomeWord, ht, hrs, h]
  rfl

/-- A symbol leaves LOCKED only as a second one whose outcome is VIOLATION_ABORT or MAXLEN_COMPLETE. -/
theorem onSymbol_unlocks (hm : s.mode = .locked) (h : s.onSymbol b = .ok t) (ht : t.mode = .hunting) :
    s.phase = true ∧ ∃ i e, decode (.outcome (outcomeWord s b)) = .ok i ∧
      (i = .violationAbort ∨ i = .maxlenComplete e) := by
  cases hp : s.phase with
  | false =>
    rw [onSymbol_first s b hm hp] at h
    rw [← Except.ok.inj h, State.pairFirst_mode, hm] at ht
    cases ht
  | true =>
    refine ⟨rfl, ?_⟩
    rcases pairSecond_mode (onSymbol_second s b hm hp ▸ h) with hk | htrip | hfull
    · rw [hk, hm] at ht; cases ht
    · exact ⟨_, false, decode_of_flagTrip htrip, .inl rfl⟩
    · exact ⟨_, flagEq s b, decode_of_flagFull hfull, .inr rfl⟩

/-- The outcome word does not read what the fetch writes. -/
theorem outcomeWord_stateAtExec {x : Transaction} (rest : List Transaction) (hc : x.cfg.getD s.cfg = s.cfg) :
    outcomeWord (stateAtExec s x rest) b = outcomeWord s b := by
  rw [stateAtExec, hc]; rfl

/-- Settles O45, by what the transaction presents: nothing, a reset, an idle or a symbol. -/
theorem modeChangesOnlyAsTabled : Obligations.ModeChangesOnlyAsTabled := by
  intro s t _ h
  have of_mode_kept {p q : Prop} (hk : t.mode = s.mode) :
      (s.mode = .hunting → t.mode = .locked → p) ∧ (s.mode = .locked → t.mode = .hunting → q) :=
    ⟨fun hs ht => (nomatch ht.symm.trans (hk.trans hs)), fun hs ht => (nomatch ht.symm.trans (hk.trans hs))⟩
  rcases step_next_cases s t h with ⟨-, -, rfl⟩ | ⟨x, rest, hin, ⟨-, hc⟩, hx⟩
  · exact of_mode_kept rfl
  rcases decodePort_cases x.word with ⟨hr, y, hy⟩ | ⟨-, y, hy⟩ | ⟨hr, b, hb⟩
  · rw [hy] at hx
    obtain rfl := Host.Outcome.next.inj hx
    exact ⟨fun _ ht => (nomatch ht), fun _ _ => ⟨x, rest, hin, .inl hr⟩⟩
  · rw [hy] at hx
    obtain rfl := Host.Outcome.next.inj hx
    exact of_mode_kept rfl
  · have hcfg : x.cfg.getD s.cfg = s.cfg := hc.resolve_right (by simp [hr])
    rw [exec_of_symbol _ b _ hb, answerOf_next] at hx
    constructor
    · intro hm ht
      rw [onSymbol_hunting (stateAtExec s x rest) b hm] at hx
      obtain rfl := Except.ok.inj hx
      obtain ⟨hfresh, hw⟩ := huntShift_locks (s := stateAtExec s x rest) hm ht
      exact ⟨hfresh, x, rest, b, hin, hb, by rw [← shiftWindow_eq, ← hcfg]; exact hw⟩
    · intro hm ht
      obtain ⟨hp, i, e, hi, ho⟩ := onSymbol_unlocks (s := stateAtExec s x rest) hm hx ht
      rw [outcomeWord_stateAtExec rest hcfg] at hi
      exact ⟨x, rest, hin, .inr ⟨b, i, e, hp, hb, hi, ho⟩⟩

end Sys2Proof.Proofs
end

section
/-! The window while LOCKED (R22, R102): an operation run with another window in place gives the same result with that
window in place. -/

namespace Sys2Proof.Proofs

open Sys2Proof.Machine Sys2Proof.Safety

/-- The state with its window replaced. -/
def withWin (w : Window) (s : State) : State := { s with win := w }

variable (w : Window) (s : State)

theorem finalize_withWin : (withWin w s).finalize = s.finalize.map (withWin w) := by
  rcases Nat.lt_or_ge s.cfg.capacity s.count with hgt | hle
  · rw [finalize_of_gt s hgt, finalize_of_gt (withWin w s) hgt]; rfl
  · rw [finalize_of_le s hle, finalize_of_le (withWin w s) hle]; rfl

theorem endFrame_withWin : (withWin w s).endFrame = s.endFrame.map (withWin w) := by
  rw [State.endFrame, State.endFrame, finalize_withWin]
  cases s.finalize <;> rfl

theorem splitFrame_withWin : (withWin w s).splitFrame = s.splitFrame.map (withWin w) := by
  by_cases h : s.count = 0
  · rw [State.splitFrame, State.splitFrame, if_pos h, if_pos (show (withWin w s).count = 0 from h)]; rfl
  · rw [State.splitFrame, State.splitFrame, if_neg h, if_neg (show (withWin w s).count ≠ 0 from h)]
    exact finalize_withWin w { s with count := s.count - 1 }

theorem storeByte_withWin : (withWin w s).storeByte = s.storeByte.map (withWin w) := by
  rcases Nat.lt_or_ge s.count s.cfg.capacity with hlt | hge
  · rw [storeByte_of_lt s hlt, storeByte_of_lt (withWin w s) hlt]; rfl
  · rw [storeByte_of_ge s hge, storeByte_of_ge (withWin w s) hge]; rfl

theorem assemble_withWin (bit : Bool) : (withWin w s).assemble bit = (s.assemble bit).map (withWin w) := by
  have hs : (withWin w s).shiftIn bit = withWin w (s.shiftIn bit) := rfl
  have hr : (withWin w (s.shiftIn bit)).resyncHit = (s.shiftIn bit).resyncHit := rfl
  simp only [State.assemble, hs, hr, splitFrame_withWin, storeByte_withWin]
  cases (s.shiftIn bit).resyncHit with
  | error f => rfl
  | ok hit =>
    cases hit with
    | true => rfl
    | false =>
      by_cases hb : (s.shiftIn bit).bitpos = 0#3
      · simp only [if_pos hb, if_pos (show (withWin w (s.shiftIn bit)).bitpos = 0#3 from hb)]
        cases (s.shiftIn bit).storeByte with
        | error f => rfl
        | ok u =>
          by_cases hc : u.count = u.cfg.capacity
          · simp only [Except.map, if_pos hc, if_pos (show (withWin w u).count = (withWin w u).cfg.capacity from hc)]
            exact endFrame_withWin w u
          · simp only [Except.map, if_neg hc, if_neg (show (withWin w u).count ≠ (withWin w u).cfg.capacity from hc)]
      · simp only [if_neg hb, if_neg (show (withWin w (s.shiftIn bit)).bitpos ≠ 0#3 from hb)]
        rfl

theorem pairSecond_withWin (b : Sym) : (withWin w s).pairSecond b = (s.pairSecond b).map (withWin w) := by
  have ht : flagTrip (withWin w s) b = flagTrip s b := rfl
  rw [pairSecond_eq, pairSecond_eq, ht]
  split
  · exact endFrame_withWin w (s.takePair true)
  · exact assemble_withWin w (s.takePair (flagEq s b)) (manBit s.ref)

theorem onSymbol_withWin (b : Sym) (hm : s.mode = .locked) :
    (withWin w s).onSymbol b = (s.onSymbol b).map (withWin w) := by
  cases hp : s.phase with
  | false => rw [onSymbol_first s b hm hp, onSymbol_first (withWin w s) b hm hp]; rfl
  | true => rw [onSymbol_second s b hm hp, onSymbol_second (withWin w s) b hm hp, pairSecond_withWin]

/-- Settles O20: a symbol commutes with replacing the window; replacing it by itself shows that it is kept. -/
theorem windowUntouchedWhileLocked : Obligations.WindowUntouchedWhileLocked := by
  intro i b s t w hi hm h
  rw [exec_of_symbol i b s hi, answerOf_next] at h
  have hcomm (v : Window) : (withWin v s).onSymbol b = .ok (withWin v t) := by
    rw [onSymbol_withWin v s b hm, h]; rfl
  have hself : t = withWin s.win t := Except.ok.inj (h.symm.trans (hcomm s.win))
  refine ⟨by rw [hself]; rfl, ?_⟩
  rw [exec_of_symbol i b _ hi, answerOf_next]
  exact hcomm w

end Sys2Proof.Proofs
end

section
/-! The reset state (R40, R260). -/

namespace Sys2Proof.Proofs

open Sys2Proof.Machine Sys2Proof.Safety

theorem decode_reset_word (x : BitVec 2) : decode (.inp (0b1#1 ++ x)) = .ok (.reset x) := by
  revert x; decide

theorem fresh_resetCore (s : State) : Fresh s.resetCore := fresh_dsReset _

/-- Settles O9: every element's reset value, by the field lemmas of `resetCore`. -/
theorem resetGivesInitialState : Obligations.ResetGivesInitialState := fun x s =>
  ⟨decode_reset_word x, s.resetCore, rfl, State.resetCore_mode s, State.resetCore_win s, fresh_resetCore s, rfl,
    fun _ => rfl, State.resetCore_frameOut s, State.resetCore_cfg s, State.resetCore_input s, State.resetCore_stepNo s⟩

theorem fresh_reset : Fresh State.reset := ⟨rfl, rfl, rfl, rfl, rfl, rfl, rfl⟩

theorem inv_reset : Inv State.reset where
  legal := by decide
  huntingFresh _ := fresh_reset
  counters := by decide
  buffer := ⟨Memory.wf_nil, Memory.below_nil 0⟩
  output _ hf := nomatch hf

/-- Settles O47: the reset values by computation, the invariant from a fresh state that drives no frame. -/
theorem resetStateHasInvariant : Obligations.ResetStateHasInvariant :=
  ⟨rfl, rfl, fresh_reset, rfl, rfl, inv_reset⟩

end Sys2Proof.Proofs
end

section
/-! Every instruction keeps the frame buffer's cells canonical (R51, R53): an operation that ends a frame clears the
buffer, the byte store writes one byte, and nothing else writes it. -/

namespace Sys2Proof.Proofs

open Sys2Proof.Machine Sys2Proof.Safety

variable {s t : State}

theorem finalize_clears (h : s.finalize = .ok t) : t.buf = [] := by
  obtain ⟨-, rfl⟩ := finalize_ok s t h
  rfl

theorem endFrame_clears (h : s.endFrame = .ok t) : t.buf = [] := by
  rw [endFrame_ok h]
  rfl

theorem splitFrame_clears (h : s.splitFrame = .ok t) : t.buf = [] := by
  obtain ⟨-, hf⟩ := splitFrame_ok h
  exact finalize_clears hf

theorem completeFrame_clears (h : s.completeFrame = .ok t) : t.buf = [] := by
  obtain ⟨u, -, he⟩ := completeFrame_ok h
  exact endFrame_clears he

theorem storeByte_writes (h : s.storeByte = .ok t) : t.buf = s.buf.write s.count s.acc := by
  obtain ⟨-, rfl⟩ := storeByte_ok h
  rfl

theorem storeByte_keeps_wf (hw : s.buf.wf = true) (h : s.storeByte = .ok t) : t.buf.wf = true := by
  rw [storeByte_writes h]
  exact Memory.write_wf _ _ _ hw

theorem wf_of_cleared (h : t.buf = []) : t.buf.wf = true := by
  rw [h]
  exact Memory.wf_nil

theorem huntShift_keeps_wf (b : Sym) (hw : s.buf.wf = true) : (s.huntShift b).buf.wf = true := by
  rcases huntShift_cases s b with ⟨-, h⟩ | ⟨-, h⟩ <;> rw [h]
  · exact wf_of_cleared rfl
  · exact hw

theorem pairSecond_keeps_wf {b : Sym} (hw : s.buf.wf = true) (h : s.pairSecond b = .ok t) : t.buf.wf = true := by
  rcases pairSecond_ok h with ⟨-, h⟩ | h | ⟨-, h⟩ | h | rfl
  · exact wf_of_cleared (endFrame_clears h)
  · exact wf_of_cleared (splitFrame_clears h)
  · exact wf_of_cleared (completeFrame_clears h)
  · exact storeByte_keeps_wf (s := s.decodePair (flagEq s b)) hw h
  · exact hw

theorem onSymbol_keeps_wf {b : Sym} (hw : s.buf.wf = true) (h : s.onSymbol b = .ok t) : t.buf.wf = true := by
  cases hm : s.mode with
  | hunting =>
    rw [onSymbol_hunting s b hm] at h
    rw [← Except.ok.inj h]
    exact huntShift_keeps_wf b hw
  | locked =>
    cases hp : s.phase with
    | false =>
      rw [onSymbol_first s b hm hp] at h
      rw [← Except.ok.inj h]
      exact hw
    | true => exact pairSecond_keeps_wf hw (onSymbol_second s b hm hp ▸ h)

/-- Settles O50, by the instruction: each leaves the buffer, clears it or stores one byte. -/
theorem instructionsKeepBufferCanonical : Obligations.InstructionsKeepBufferCanonical := by
  intro i s t h hw
  have ok_of {r : Except Fault State} (hr : answerOf r = .next t) : r = .ok t := (answerOf_next r t).1 hr
  cases i with
  | reset x => rw [← Host.Outcome.next.inj h]; exact wf_of_cleared s.resetCore_buf
  | idle x => rw [← Host.Outcome.next.inj h]; exact hw
  | sym0 => exact onSymbol_keeps_wf hw (ok_of h)
  | sym1 => exact onSymbol_keeps_wf hw (ok_of h)
  | byteZero => exact onSymbol_keeps_wf hw (ok_of h)
  | byteNonzero b => exact onSymbol_keeps_wf hw (ok_of h)
  | huntShift x b => rw [← Host.Outcome.next.inj h]; exact huntShift_keeps_wf b hw
  | pairFirst b => rw [← Host.Outcome.next.inj h]; exact hw
  | pairSecond b => exact pairSecond_keeps_wf hw (ok_of h)
  | violationAbort => exact wf_of_cleared (endFrame_clears (ok_of h))
  | bitAccumulate e => rw [← Host.Outcome.next.inj h]; exact hw
  | resync e => exact wf_of_cleared (splitFrame_clears (ok_of h))
  | byteStore e => exact storeByte_keeps_wf (s := s.decodePair e) hw (ok_of h)
  | maxlenComplete e => exact wf_of_cleared (completeFrame_clears (ok_of h))
  | finalize => exact wf_of_cleared (finalize_clears (ok_of h))

end Sys2Proof.Proofs
end

section
/-! The outcomes where the rules say nothing: a buffer index from the capacity on, and a split with no byte left to emit
(R53, U14, R144). -/

namespace Sys2Proof.Proofs

open Sys2Proof.Machine Sys2Proof.Safety

variable {s : State}

theorem completeFrame_of_ge (h : s.cfg.capacity ≤ s.count) : s.completeFrame = .error (.bufferIndex s.count) := by
  rw [State.completeFrame, storeByte_of_ge s h]

theorem splitFrame_of_zero (h : s.count = 0) : s.splitFrame = .error .countUnderflow := by
  rw [State.splitFrame, if_pos h]

/-- A split at a count of 1 has no byte left to emit: it only resets the Decoder State. -/
theorem splitFrame_of_one (h : s.count = 1) : s.splitFrame = .ok s.dsReset := by
  rw [splitFrame_of_le s (by omega) (by omega), if_pos h]

/-- Settles O29: the store faults from the capacity on, the finalizer beyond it, and the split at 0. -/
theorem outcomesOutsideTheRules : Obligations.OutcomesOutsideTheRules := by
  intro e s
  refine ⟨fun h => ⟨?_, ?_⟩, fun h => ⟨?_, ?_⟩, fun h => ?_, fun h => ⟨(s.decodePair e).dsReset, ?_, ?_⟩⟩
  · exact congrArg answerOf (storeByte_of_ge (s.decodePair e) h)
  · exact congrArg answerOf (completeFrame_of_ge (s := s.decodePair e) h)
  · exact congrArg answerOf (finalize_of_gt s h)
  · exact congrArg answerOf (endFrame_of_gt (s.takePair true) h)
  · exact congrArg answerOf (splitFrame_of_zero (s := s.decodePair e) h)
  · exact congrArg answerOf (splitFrame_of_one (s := s.decodePair e) h)
  · exact ⟨rfl, fresh_dsReset _, rfl, rfl, rfl, rfl, rfl⟩

end Sys2Proof.Proofs
end

section
/-! The symbols of a byte (R83, R145): bits away from the marker position and the byte boundary only accumulate, and the
byte's last bit stores it. -/

namespace Sys2Proof.Proofs

open Sys2Proof.Machine Sys2Proof.Safety

variable {s : State}

/-- The state after the symbols of the bits `bs`, when every one of them only accumulates (R141). -/
def afterBits (s : State) (bs : List Bool) : State :=
  { s with
    phase := false, ref := bs.foldl (fun _ b => !b) s.ref, acc := bs.foldl shiftAcc s.acc
    bitpos := s.bitpos + BitVec.ofNat 3 bs.length }

theorem afterBits_append (bs cs : List Bool) : afterBits s (bs ++ cs) = afterBits (afterBits s bs) cs := by
  simp only [afterBits, List.foldl_append, List.length_append, BitVec.ofNat_add, BitVec.add_assoc]

/-- The marker condition of R143 that shifting in `b` meets at the second bit of a byte. -/
def CompletesMarker (s : State) (b : Bool) : Prop :=
  2 ≤ s.count ∧ s.buf.read (s.count - 1) = resyncByte s.cfg ∧ (shiftAcc s.acc b).extractLsb' 0 2 = resyncLow2 s.cfg

/-- ASSEMBLE within the buffer, where the bit ends no marker (R140, R143). -/
theorem assemble_of_no_marker {b : Bool} (hc : s.count ≤ s.cfg.capacity)
    (hm : s.bitpos = 1#3 → ¬ CompletesMarker s b) :
    s.assemble b =
      if s.bitpos = 7#3 then
        (if s.count + 1 = s.cfg.capacity then (s.shiftIn b).completeFrame else (s.shiftIn b).storeByte)
      else .ok (s.shiftIn b) := by
  have hlast : (s.shiftIn b).bitpos = 0#3 ↔ s.bitpos = 7#3 := by
    rw [State.shiftIn_bitpos]; bv_omega
  rw [assemble_of_le s b hc, if_neg, if_congr hlast rfl rfl]
  simp only [Bool.and_eq_true, decide_eq_true_eq, beq_iff_eq]
  rintro ⟨⟨⟨hpos, hcount⟩, hbyte⟩, hlow⟩
  have hsecond : s.bitpos = 1#3 := by rw [State.shiftIn_bitpos] at hpos; bv_omega
  exact hm hsecond ⟨hcount, hbyte, hlow⟩

/-- The two symbols of a bit that ends neither a marker nor a byte accumulate it (R141). -/
theorem feed_bit_accumulates (b : Bool) (rest : List Sym) (hmode : s.mode = .locked) (hp : s.phase = false)
    (hc : s.count ≤ s.cfg.capacity) (hpos : s.bitpos ≠ 7#3) (hm : s.bitpos = 1#3 → ¬ CompletesMarker s b) :
    feed (bitSyms b ++ rest) s = feed rest (afterBits s [b]) := by
  refine feed_bitSyms s _ b rest hmode hp ?_
  exact (assemble_of_no_marker (s := { s with ref := !b, phase := false }) hc hm).trans (if_neg hpos)

/-- The two symbols of a byte's last bit store the byte, where that leaves room (R145). -/
theorem feed_last_bit_stores (b : Bool) (rest : List Sym) (hmode : s.mode = .locked) (hp : s.phase = false)
    (hc : s.count + 1 < s.cfg.capacity) (hpos : s.bitpos = 7#3) :
    feed (bitSyms b ++ rest) s = feed rest { afterBits s [b] with
      buf := s.buf.write s.count (afterBits s [b]).acc, count := s.count + 1 } := by
  refine feed_bitSyms s _ b rest hmode hp ?_
  have hm : s.bitpos = 1#3 → ¬ CompletesMarker { s with ref := !b, phase := false } b := by simp [hpos]
  calc ({ s with ref := !b, phase := false } : State).assemble b
    _ = if s.bitpos = 7#3 then
          (if s.count + 1 = s.cfg.capacity then
            (({ s with ref := !b, phase := false } : State).shiftIn b).completeFrame
          else (({ s with ref := !b, phase := false } : State).shiftIn b).storeByte)
        else .ok (({ s with ref := !b, phase := false } : State).shiftIn b) :=
      assemble_of_no_marker (s := { s with ref := !b, phase := false }) (by simp only; omega) hm
    _ = (({ s with ref := !b, phase := false } : State).shiftIn b).storeByte := by
      rw [if_pos hpos, if_neg (by omega)]
    _ = _ := storeByte_of_lt _ (by simp only [State.shiftIn_count, State.shiftIn_cfg]; omega)

/-- Bits short of a byte boundary, past the marker position or with fewer than two bytes stored, all accumulate. -/
theorem feed_bits_accumulate (bs : List Bool) (rest : List Sym) (hmode : s.mode = .locked) (hp : s.phase = false)
    (hc : s.count ≤ s.cfg.capacity) (hlen : s.bitpos.toNat + bs.length < 8)
    (hm : 2 ≤ s.bitpos.toNat ∨ s.count < 2) :
    feed (bs.flatMap bitSyms ++ rest) s = feed rest (afterBits s bs) := by
  induction bs generalizing s with
  | nil => simp [afterBits, ← hp]
  | cons b bs ih =>
    rw [List.length_cons] at hlen
    have hnext : (afterBits s [b]).bitpos.toNat = s.bitpos.toNat + 1 := by
      simp only [afterBits, List.length_singleton, BitVec.toNat_add, BitVec.toNat_ofNat]; omega
    have hpos : s.bitpos ≠ 7#3 := by bv_omega
    have hmark : s.bitpos = 1#3 → ¬ CompletesMarker s b := by
      rintro h ⟨hcount, -, -⟩
      rw [h] at hm
      exact hm.elim (by decide) (by omega)
    rw [List.flatMap_cons, List.append_assoc, feed_bit_accumulates b _ hmode hp hc hpos hmark,
      ih (s := afterBits s [b]) hmode rfl hc (by omega) (hm.imp (by omega) id), ← afterBits_append,
      List.singleton_append]

/-- The accumulator after some bits: the last of them lowest, above them what was there. -/
theorem foldl_shiftAcc_getLsbD (bs : List Bool) (acc : Byte) (i : Nat) (hi : i < 8) :
    (bs.foldl shiftAcc acc).getLsbD i =
      if i < bs.length then bs.getD (bs.length - 1 - i) false else acc.getLsbD (i - bs.length) := by
  induction bs generalizing acc with
  | nil => simp
  | cons b bs ih =>
    rw [List.foldl_cons, ih, List.length_cons]
    rcases Nat.lt_trichotomy i bs.length with h | h | h
    · rw [if_pos h, if_pos (by omega), show bs.length + 1 - 1 - i = bs.length - 1 - i + 1 by omega, List.getD_cons_succ]
    · subst h
      rw [if_neg (by omega), Nat.sub_self, shiftAcc_getLsbD _ _ _ (by omega), if_pos rfl, if_pos (by omega),
        show bs.length + 1 - 1 - bs.length = 0 by omega, List.getD_cons_zero]
    · rw [if_neg (by omega), if_neg (by omega), shiftAcc_getLsbD _ _ _ (by omega), if_neg (by omega), Nat.sub_sub]

/-- A byte's eight bits, shifted in, are the byte, whatever the accumulator held. -/
theorem foldl_shiftAcc_bitsOf (x acc : Byte) : (bitsOf x.toNat 8).foldl shiftAcc acc = x := by
  apply BitVec.eq_of_getLsbD_eq
  intro i hi
  rw [foldl_shiftAcc_getLsbD _ _ _ hi, bitsOf_length, if_pos hi, bitsOf_getD _ _ _ (by omega),
    show 8 - 1 - (8 - 1 - i) = i by omega]
  rfl

/-- A byte's first two bits, shifted in, are the accumulator's low two. -/
theorem shiftAcc_top_two (x acc : Byte) :
    (shiftAcc (shiftAcc acc (x.getLsbD 7)) (x.getLsbD 6)).extractLsb' 0 2 = x.extractLsb' 6 2 := by
  apply BitVec.eq_of_getLsbD_eq
  intro i hi
  rw [BitVec.getLsbD_extractLsb', BitVec.getLsbD_extractLsb', shiftAcc_getLsbD _ _ _ (by omega)]
  rcases i with _ | _ | i
  · rfl
  · simp [shiftAcc_getLsbD, -BitVec.getLsbD_eq_getElem]
  · omega

/-- From a byte boundary with room, and no marker in the byte's top two bits, the symbols of a byte store it (R145). -/
theorem feed_byteSyms_stores (x : Byte) (hmode : s.mode = .locked) (hp : s.phase = false) (hb : s.bitpos = 0#3)
    (hc : s.count + 1 < s.cfg.capacity)
    (hm : ¬ (2 ≤ s.count ∧ s.buf.read (s.count - 1) = resyncByte s.cfg ∧ x.extractLsb' 6 2 = resyncLow2 s.cfg)) :
    feed (byteSyms x) s = .next { afterBits s (bitsOf x.toNat 8) with
      buf := s.buf.write s.count x, count := s.count + 1 } := by
  have hle : s.count ≤ s.cfg.capacity := by omega
  have hsplit : byteSyms x = bitSyms (x.getLsbD 7) ++ (bitSyms (x.getLsbD 6) ++
      ([x.getLsbD 5, x.getLsbD 4, x.getLsbD 3, x.getLsbD 2, x.getLsbD 1].flatMap bitSyms ++
        (bitSyms (x.getLsbD 0) ++ []))) := rfl
  have hbits : bitsOf x.toNat 8 = [x.getLsbD 7] ++ [x.getLsbD 6] ++
      [x.getLsbD 5, x.getLsbD 4, x.getLsbD 3, x.getLsbD 2, x.getLsbD 1] ++ [x.getLsbD 0] := rfl
  have hacc : (afterBits s (bitsOf x.toNat 8)).acc = x := foldl_shiftAcc_bitsOf x s.acc
  have hmarker : ¬ CompletesMarker (afterBits s [x.getLsbD 7]) (x.getLsbD 6) := by
    rintro ⟨hcount, hbyte, hlow⟩
    exact hm ⟨hcount, hbyte, (shiftAcc_top_two x s.acc).symm.trans hlow⟩
  rw [hsplit, feed_bit_accumulates _ _ hmode hp hle (by simp [hb]) (by simp [hb]),
    feed_bit_accumulates (s := afterBits s _) _ _ hmode rfl hle (by simp [afterBits, hb]) fun _ => hmarker,
    ← afterBits_append,
    feed_bits_accumulate (s := afterBits s _) _ _ hmode rfl hle (by simp [afterBits, hb]) (by simp [afterBits, hb]),
    ← afterBits_append,
    feed_last_bit_stores (s := afterBits s _) _ _ hmode rfl hc (by simp [afterBits, hb]), ← afterBits_append, ← hbits,
    hacc]
  rfl

/-- Settles O36: the byte reads back at its index, and every other field is the one `afterBits` gives. -/
theorem sixteenSymbolsStoreTheirByte : Obligations.SixteenSymbolsStoreTheirByte := by
  intro s x hmode hp hb hc hm
  refine ⟨_, feed_byteSyms_stores x hmode hp hb hc hm, hmode, rfl, ?_, rfl, ?_, fun a ha => ?_,
    foldl_shiftAcc_bitsOf x s.acc, rfl, rfl, rfl, rfl, rfl, rfl⟩
  · simp [afterBits, hb, bitsOf_length]
  · rw [Memory.read_write, if_pos rfl]
  · rw [Memory.read_write, if_neg ha]

end Sys2Proof.Proofs
end

section
/-! The decoders and the encoder are inverse to each other, format by format (R71, R72, R74, R75). -/

namespace Sys2Proof.Proofs

theorem decodeByte_of_ne {b : Byte} (h : b ≠ 0) : decodeByte b = .byteNonzero b := by
  rw [decodeByte, if_neg h]

/-- Settles O1, by the instruction: the fixed bits select its row, and the operand's bits are read back. -/
theorem decodeOfEncode : Obligations.DecodeOfEncode := by
  intro i hw
  cases i with
  | reset x => exact decode_reset_word x
  | idle x => cases x <;> rfl
  | sym0 => rfl
  | sym1 => rfl
  | byteZero => rfl
  | byteNonzero b =>
    have hb : b ≠ 0 := bne_iff_ne.1 hw
    exact congrArg Except.ok (decodeByte_of_ne hb)
  | huntShift x s => cases x <;> cases s <;> rfl
  | pairFirst s => cases s <;> rfl
  | pairSecond s => cases s <;> rfl
  | violationAbort => rfl
  | bitAccumulate e => cases e <;> rfl
  | resync e => cases e <;> rfl
  | byteStore e => cases e <;> rfl
  | maxlenComplete e => cases e <;> rfl
  | finalize => rfl

theorem encode_decodeIn (w : InWord) : encode (decodeIn w) = .inp w ∧ (decodeIn w).wellFormed = true := by
  revert w; decide

theorem encode_decodeByte (b : Byte) : encode (decodeByte b) = .byte b ∧ (decodeByte b).wellFormed = true := by
  by_cases hb : b = 0
  · subst hb; exact ⟨rfl, rfl⟩
  · rw [decodeByte_of_ne hb]; exact ⟨rfl, bne_iff_ne.2 hb⟩

theorem encode_decodeKey (k : KeyWord) : encode (decodeKey k) = .key k ∧ (decodeKey k).wellFormed = true := by
  revert k; decide

/-- An OUTCOME word is its `eq` bit over its four others. -/
theorem outcome_of_low_bits {o : OutcomeWord} {p : BitVec 4} (h : o.extractLsb' 0 4 = p) :
    BitVec.ofBool (o.getLsbD 4) ++ p = o := by
  subst h; revert o; decide

/-- The decoder of OUTCOME words, pattern by pattern. -/
theorem encode_of_decodeOutcome {o : OutcomeWord} {i : Instr} (h : decodeOutcome o = .ok i) :
    encode i = .outcome o ∧ i.wellFormed = true := by
  unfold decodeOutcome at h
  split_ifs at h with habort hbit hrs hstore hfull <;> obtain rfl := Except.ok.inj h
  · exact ⟨congrArg _ habort.symm, rfl⟩
  · exact ⟨congrArg _ (outcome_of_low_bits hbit), rfl⟩
  · exact ⟨congrArg _ (outcome_of_low_bits hrs), rfl⟩
  · exact ⟨congrArg _ (outcome_of_low_bits hstore), rfl⟩
  · exact ⟨congrArg _ (outcome_of_low_bits hfull), rfl⟩

/-- Settles O2, format by format. -/
theorem encodeOfDecode : Obligations.EncodeOfDecode := by
  intro w i h
  cases w with
  | inp w => obtain rfl := Except.ok.inj h; exact encode_decodeIn w
  | byte b => obtain rfl := Except.ok.inj h; exact encode_decodeByte b
  | key k => obtain rfl := Except.ok.inj h; exact encode_decodeKey k
  | outcome o => exact encode_of_decodeOutcome h
  | internal => obtain rfl := Except.ok.inj h; exact ⟨rfl, rfl⟩

/-- Settles O3: the sixteen words, decoded. -/
theorem specWordsDecode : Obligations.SpecWordsDecode := by
  unfold Obligations.SpecWordsDecode
  decide

end Sys2Proof.Proofs
end

section
/-! The three layers of the opcode table: an input byte is its symbol's IN word, a symbol performs its KEY word's
operation, and a second symbol its OUTCOME word's (R72, R74, R75). -/

namespace Sys2Proof.Proofs

open Sys2Proof.Machine Sys2Proof.Safety

variable {s : State} {b : Sym}

theorem symbolOf_byteNonzero {x : Byte} (h : x ≠ 0x00#8) : symbolOf (.byteNonzero x) = some true := if_neg h

/-- Two instructions that bring the same symbol act alike. -/
theorem exec_eq_of_symbolOf {i j : Instr} (s : State) (hi : symbolOf i = some b) (hj : symbolOf j = some b) :
    exec i s = exec j s := by
  rw [exec_of_symbol i b s hi, exec_of_symbol j b s hj]

/-- Settles O13: the byte's instruction and its IN word's bring the same symbol. -/
theorem bytesActAsTheirSymbols : Obligations.BytesActAsTheirSymbols := by
  refine ⟨fun x s => ?_, fun x y s hx hy => ?_⟩
  · by_cases hx : x = 0x00#8
    · subst hx; rfl
    · rw [decodeByte_of_ne hx, byteToIn, if_neg hx]
      exact exec_eq_of_symbolOf s (symbolOf_byteNonzero hx) rfl
  · exact exec_eq_of_symbolOf s (symbolOf_byteNonzero hx) (symbolOf_byteNonzero hy)

theorem decodeKey_hunting (b : Sym) (hm : s.mode = .hunting) : decodeKey (keyWord s b) = .huntShift s.phase b := by
  rw [keyWord, hm]
  cases s.phase <;> cases b <;> rfl

theorem decodeKey_first (b : Sym) (hm : s.mode = .locked) (hp : s.phase = false) :
    decodeKey (keyWord s b) = .pairFirst b := by
  rw [keyWord, hm, hp]
  cases b <;> rfl

theorem decodeKey_second (b : Sym) (hm : s.mode = .locked) (hp : s.phase = true) :
    decodeKey (keyWord s b) = .pairSecond b := by
  rw [keyWord, hm, hp]
  cases b <;> rfl

/-- Settles O11, by the mode and the phase the key is made of. -/
theorem symbolRunsItsKey : Obligations.SymbolRunsItsKey := by
  intro i k b s hi hk
  obtain rfl : decodeKey (keyWord s b) = k := Except.ok.inj hk
  rw [exec_of_symbol i b s hi]
  cases hm : s.mode with
  | hunting => rw [onSymbol_hunting s b hm, decodeKey_hunting b hm]; rfl
  | locked =>
    cases hp : s.phase with
    | false => rw [onSymbol_first s b hm hp, decodeKey_first b hm hp]; rfl
    | true => rw [onSymbol_second s b hm hp, decodeKey_second b hm hp]; rfl

/-- Settles O4: the constraints between the five flags leave no other pattern. -/
theorem outcomeIsOneOfFive : Obligations.OutcomeIsOneOfFive := by
  intro s b
  refine ⟨flagEq s b, ?_⟩
  rw [decode_outcomeWord]
  split_ifs with htrip hrs hfull hbc
  · exact .inl rfl
  · exact .inr (.inr (.inl rfl))
  · exact .inr (.inr (.inr (.inr rfl)))
  · exact .inr (.inr (.inr (.inl rfl)))
  · exact .inr (.inl rfl)

/-- ASSEMBLE of a second symbol within the tolerance: its three tests are the flags `rs`, `bc` and `full` of R75. -/
theorem assemble_of_flags (hc : s.count ≤ s.cfg.capacity) (ht : flagTrip s b = false) :
    (s.takePair (flagEq s b)).assemble (manBit s.ref) =
      if flagRs s b then (s.decodePair (flagEq s b)).splitFrame
      else if flagBc s b then
        (if flagFull s b then (s.decodePair (flagEq s b)).completeFrame else (s.decodePair (flagEq s b)).storeByte)
      else .ok (s.decodePair (flagEq s b)) := by
  have hrs : flagRs s b = (decide (s.bitpos + 1 = 2#3) && decide (2 ≤ s.count) &&
      s.buf.read (s.count - 1) == resyncByte s.cfg &&
      (shiftAcc s.acc (manBit s.ref)).extractLsb' 0 2 == resyncLow2 s.cfg) := by
    simp only [flagRs, ht, bitposNext, accNext, Bool.not_false, Bool.true_and, beq_eq_decide]
  have hbc : s.bitpos + 1 = 0#3 ↔ flagBc s b = true := by simp [flagBc, ht, bitposNext]
  have hfull (hb : flagBc s b = true) : s.count + 1 = s.cfg.capacity ↔ flagFull s b = true := by
    simp [flagFull, hb]
  rw [assemble_of_le (s.takePair (flagEq s b)) (manBit s.ref) hc, hrs]
  exact if_congr Iff.rfl rfl (if_ctx_congr hbc (fun hb => if_congr (hfull hb) rfl rfl) fun _ => rfl)

/-- `full` needs `bc` (R75). -/
theorem flagBc_of_flagFull (h : flagFull s b = true) : flagBc s b = true := by
  simp only [flagFull, Bool.and_eq_true] at h
  exact h.1

/-- Settles O12, by the flags: each names the branch of PAIR_SECOND and ASSEMBLE that runs. -/
theorem secondSymbolRunsItsOutcome : Obligations.SecondSymbolRunsItsOutcome := by
  intro s b i hc hi
  rw [decode_outcomeWord] at hi
  obtain rfl := Except.ok.inj hi
  change answerOf (s.pairSecond b) = _
  rw [pairSecond_eq]
  cases htrip : flagTrip s b with
  | true => rfl
  | false =>
    rw [if_neg Bool.false_ne_true, if_neg Bool.false_ne_true, assemble_of_flags hc htrip]
    split_ifs with hrs hbc hfull hfull
    · rfl
    · rfl
    · rfl
    · exact absurd (flagBc_of_flagFull hfull) hbc
    · rfl

end Sys2Proof.Proofs
end

section
/-! The outputs (R35, R79, R80): a frame of 1 to C bytes fits the length output's width. -/

namespace Sys2Proof.Proofs

open Sys2Proof.Machine Sys2Proof.Safety

variable {s : State} {f : Frame}

theorem lt_two_pow_bitLength (n : Nat) : n < 2 ^ bitLength n := by
  by_cases h : n = 0
  · subst h; decide
  · rw [bitLength, if_neg h]
    exact Nat.lt_log2_self

theorem frameLen_of_some (h : s.frameOut = some f) : s.frameLen = f.len := by rw [State.frameLen, h]

theorem frameCrc16Ok_of_some (h : s.frameOut = some f) : s.frameCrc16Ok = f.crc16Ok := by
  rw [State.frameCrc16Ok, h]

theorem frameData_of_some (h : s.frameOut = some f) {i : Nat} (hi : i < f.bytes.length) :
    some (s.frameData i) = f.bytes[i]? := by
  simp [State.frameData, h, hi]

/-- The length output is within its width, with a frame by R206 (5) and without one by the port's reduction. -/
theorem frameLen_lt (h : OutputOk s) : s.frameLen < 2 ^ s.cfg.countWidth := by
  cases hf : s.frameOut with
  | none =>
    rw [State.frameLen, hf]
    exact Nat.mod_lt _ (Nat.two_pow_pos _)
  | some f =>
    obtain ⟨-, hle, -, -⟩ := h f hf
    rw [frameLen_of_some hf]
    exact Nat.lt_of_le_of_lt hle (lt_two_pow_bitLength s.cfg.capacity)

/-- Settles O54, output by output. -/
theorem portsDriveTheFrame : Obligations.PortsDriveTheFrame := by
  intro s hinv
  refine ⟨beq_iff_eq, Option.isSome_iff_ne_none, frameLen_lt hinv.output, fun f hf => ?_⟩
  obtain ⟨-, -, hlen, -⟩ := hinv.output f hf
  exact ⟨frameLen_of_some hf, frameCrc16Ok_of_some hf, fun i hi => frameData_of_some hf (hlen ▸ hi)⟩

end Sys2Proof.Proofs
end

section
/-! The hunting symbol by its two branches, and from them the lock after a run of symbols: when the lock symbols lock,
and how early a lock can come (R100 to R108). -/

namespace Sys2Proof.Proofs

open Sys2Proof.Machine Sys2Proof.Safety

variable {s : State} {b : Sym}

/-- A match locks, with the lock pattern as the window it may clear (R103). -/
theorem huntShift_of_match (h : shiftWindow s.win b = s.cfg.preEnc) :
    s.huntShift b = ({ s with win := s.cfg.preEnc } : State).lock := by
  rw [State.huntShift, if_pos h, h]

theorem huntShift_of_no_match (h : shiftWindow s.win b ≠ s.cfg.preEnc) :
    s.huntShift b = { s with win := shiftWindow s.win b } := if_neg h

theorem huntShift_frameOut (s : State) (b : Sym) : (s.huntShift b).frameOut = s.frameOut := by
  rcases huntShift_cases s b with ⟨-, h⟩ | ⟨-, h⟩
  · rw [h, State.lock_frameOut]
  · rw [h]

theorem exec_symbol_hunting {i : Instr} (hi : symbolOf i = some b) (hm : s.mode = .hunting) :
    exec i s = .next (s.huntShift b) := by
  rw [exec_of_symbol i b s hi, onSymbol_hunting s b hm, answerOf_ok]

/-- Settles O14: the symbol is a hunting shift, and the window's two spellings agree. -/
theorem symbolWhileHunting : Obligations.SymbolWhileHunting := by
  intro i b s hi hm
  simp only [← shiftWindow_eq]
  refine ⟨_, exec_symbol_hunting hi hm, huntShift_sameEnvironment s b, huntShift_frameOut s b,
    huntShift_of_no_match, fun hmatch => ?_⟩
  rw [huntShift_of_match hmatch]
  exact ⟨rfl, fresh_lock _⟩

/-- Settles O16: the two branches of the hunting shift. -/
theorem huntShiftLocksOnExactMatch : Obligations.HuntShiftLocksOnExactMatch := by
  intro x b s
  simp only [← shiftWindow_eq]
  refine ⟨_, rfl, huntShift_sameEnvironment s b, huntShift_frameOut s b, fun hmatch => ?_, huntShift_of_no_match⟩
  rw [huntShift_of_match hmatch]
  exact ⟨rfl, fresh_lock _, fun _ => rfl, rfl⟩

/-- Symbols whose proper prefixes all leave the core hunting lock with the last one, if they leave the lock pattern in
the window. -/
theorem feed_locks (bs : List Sym) (hne : bs ≠ [])
    (hp : ∀ k < bs.length, ∃ u, feed (bs.take k) s = .next u ∧ u.mode = .hunting)
    (hw : bs.foldl shiftWindow s.win = s.cfg.preEnc) :
    feed bs s = .next ({ s with win := s.cfg.preEnc } : State).lock := by
  induction bs generalizing s with
  | nil => exact absurd rfl hne
  | cons b bs ih =>
    have hm : s.mode = .hunting := by
      obtain ⟨u, hu, hmode⟩ := hp 0 (by simp)
      obtain rfl := Host.Outcome.next.inj hu
      exact hmode
    have hfeed (cs : List Sym) : feed (b :: cs) s = feed cs (s.huntShift b) := by
      rw [feed, exec_symInstr_hunting s b hm]
    rw [hfeed]
    cases bs with
    | nil => rw [huntShift_of_match hw]; rfl
    | cons c cs =>
      have hnext (k : Nat) (hk : k < (c :: cs).length) :
          ∃ u, feed ((c :: cs).take k) (s.huntShift b) = .next u ∧ u.mode = .hunting := by
        rw [← hfeed]
        exact hp (k + 1) (Nat.succ_lt_succ hk)
      have hno : shiftWindow s.win b ≠ s.cfg.preEnc := by
        intro hmatch
        obtain ⟨u, hu, hmode⟩ := hnext 0 (by simp)
        rw [huntShift_of_match hmatch] at hu
        obtain rfl := Host.Outcome.next.inj hu
        cases hmode
      rw [huntShift_of_no_match hno] at hnext ⊢
      exact ih (s := { s with win := shiftWindow s.win b }) (List.cons_ne_nil c cs) hnext hw

/-- Settles O17: the twenty lock symbols fill the window with the lock pattern. -/
theorem preambleLocks : Obligations.PreambleLocks := by
  intro s _ hp
  have hlen := preSyms_length s.cfg
  have hne : preSyms s.cfg ≠ [] := List.ne_nil_of_length_pos (by omega)
  exact ⟨_, feed_locks _ hne (hlen ▸ hp) (foldl_shiftWindow_preSyms s.win s.cfg), rfl, fresh_lock _⟩

/-- Above the bits of the symbols fed the window keeps the bits it had. -/
theorem foldl_shiftWindow_getLsbD_of_le (bs : List Sym) (w : Window) {i : Nat} (hi : i < 20) (h : bs.length ≤ i) :
    (bs.foldl shiftWindow w).getLsbD i = w.getLsbD (i - bs.length) := by
  rw [foldl_shiftWindow_getLsbD _ _ _ hi, if_neg (by omega)]

/-- Fewer than twenty symbols leave the core hunting where no prefix of them leaves the lock pattern. -/
theorem feed_stays_hunting (bs : List Sym) (hm : s.mode = .hunting) (hlen : bs.length < 20)
    (h : ∀ k, 1 ≤ k → k < 20 → (bs.take k).length = k → (bs.take k).foldl shiftWindow s.win ≠ s.cfg.preEnc) :
    ∃ t, feed bs s = .next t ∧ t.mode = .hunting :=
  ⟨_, feed_without_match bs s hm fun k h1 hk => h k h1 (by omega) (List.length_take_of_le hk), hm⟩

/-- Settles O18: short of twenty symbols the window's bit 19 is still a 0 of the window at the start. -/
theorem noLockBeforeTwentySymbols : Obligations.NoLockBeforeTwentySymbols := by
  intro s bs hm hwin hpre hlen
  refine feed_stays_hunting bs hm hlen fun k _ hk hklen hmatch => ?_
  have hbit := foldl_shiftWindow_getLsbD_of_le (bs.take k) s.win (i := 19) (by omega) (by omega)
  rw [hmatch, hpre, hwin, BitVec.getLsbD_zero] at hbit
  cases hbit

/-- Up to twenty symbols can be read back from the window they leave. -/
theorem eq_of_foldl_shiftWindow_eq {bs cs : List Sym} {w v : Window} (hlen : bs.length = cs.length)
    (h20 : bs.length ≤ 20) (h : bs.foldl shiftWindow w = cs.foldl shiftWindow v) : bs = cs := by
  refine List.ext_getElem hlen fun j hj hj' => ?_
  have hbit := congrArg (BitVec.getLsbD · (bs.length - 1 - j)) h
  rw [foldl_shiftWindow_getLsbD _ _ _ (by omega), foldl_shiftWindow_getLsbD _ _ _ (by omega), if_pos (by omega),
    if_pos (by omega), ← hlen, show bs.length - 1 - (bs.length - 1 - j) = j by omega, Bool.not_inj_iff,
    List.getD_eq_getElem _ _ hj, List.getD_eq_getElem _ _ hj'] at hbit
  exact hbit

/-- The reference lock pattern overlaps itself at no shift below 20 other than 18 (R105). -/
theorem reference_pattern_overlap :
    ∀ k < 20, 1 ≤ k → k ≠ 18 → ∃ i < 20, k ≤ i ∧ (0xAAA66#20).getLsbD i ≠ (0xAAA66#20).getLsbD (i - k) := by
  decide

/-- At a shift of 18 it does: its last eighteen symbols bring it back (R105). -/
theorem foldl_shiftWindow_drop_two_preSyms {c : Config} (hpre : c.preEnc = 0xAAA66#20) :
    ((preSyms c).drop 2).foldl shiftWindow 0xAAA66#20 = 0xAAA66#20 := by
  rw [preSyms, hpre]
  decide

/-- Over the reference pattern, fewer than twenty symbols bring it back only if they are its last eighteen symbols. -/
theorem eq_drop_two_of_rematch {c : Config} (hpre : c.preEnc = 0xAAA66#20) {bs : List Sym} (h1 : 1 ≤ bs.length)
    (h20 : bs.length < 20) (h : bs.foldl shiftWindow 0xAAA66#20 = 0xAAA66#20) : bs = (preSyms c).drop 2 := by
  by_cases h18 : bs.length = 18
  · refine eq_of_foldl_shiftWindow_eq ?_ (by omega) (h.trans (foldl_shiftWindow_drop_two_preSyms hpre).symm)
    rw [h18, List.length_drop, preSyms_length]
  · obtain ⟨i, hi, hle, hne⟩ := reference_pattern_overlap bs.length h20 h1 h18
    have hbit := foldl_shiftWindow_getLsbD_of_le bs 0xAAA66#20 hi hle
    rw [h] at hbit
    exact absurd hbit hne

/-- Settles O19: the pattern's one overlap with itself is at a shift of 18, so a prefix that brings it back is those
eighteen symbols. -/
theorem relockAfterEighteenSymbols : Obligations.RelockAfterEighteenSymbols := by
  intro s hm hpre hwin
  have hlen : ((preSyms s.cfg).drop 2).length = 18 := by rw [List.length_drop, preSyms_length]
  have hstay (bs : List Sym) (h20 : bs.length < 20) (hother : bs.take 18 ≠ (preSyms s.cfg).drop 2) :
      ∃ t, feed bs s = .next t ∧ t.mode = .hunting := by
    refine feed_stays_hunting bs hm h20 fun k h1 hk hklen hmatch => hother ?_
    rw [hwin, hpre] at hmatch
    have heq := eq_drop_two_of_rematch hpre (by omega) (by omega) hmatch
    rwa [show k = 18 by rw [← hklen, heq, hlen]] at heq
  refine ⟨⟨_, feed_locks _ (List.ne_nil_of_length_pos (by omega)) (fun k hk => ?_) ?_, rfl⟩, hstay⟩
  · refine hstay _ (by rw [List.length_take]; omega) fun h => ?_
    have hshort := congrArg List.length h
    rw [List.length_take, List.length_take] at hshort
    omega
  · rw [hwin, hpre]
    exact foldl_shiftWindow_drop_two_preSyms hpre

end Sys2Proof.Proofs
end

section
/-! The bit decoder's instructions (R121 to R126): what caching the first symbol, ending the frame and accumulating a
valid pair answer, and how a tolerated violation reduces to a valid pair. -/

namespace Sys2Proof.Proofs

open Sys2Proof.Machine Sys2Proof.Safety

variable {s : State} {b : Sym}

/-- Settles O22: caching the first symbol is the whole instruction. -/
theorem pairFirstCaches : Obligations.PairFirstCaches := fun _ _ => rfl

/-- In LOCKED with phase 0 the key is `10s` (R74). -/
theorem keyWord_first (b : Sym) (hm : s.mode = .locked) (hp : s.phase = false) :
    keyWord s b = 0b10#2 ++ BitVec.ofBool b := by
  rw [keyWord, hm, hp]
  rfl

/-- Settles O15: the symbol and its KEY word's instruction both cache the level. -/
theorem symbolFirstOfPair : Obligations.SymbolFirstOfPair := by
  intro i b s hi hm hp
  refine ⟨keyWord_first b hm hp, congrArg Except.ok (decodeKey_first b hm hp), pairFirstCaches b s, ?_⟩
  rw [exec_of_symbol i b s hi, onSymbol_first s b hm hp]
  rfl

/-- Within the buffer VIOLATION_ABORT emits the stored bytes, resets the Decoder State and goes to HUNTING. -/
theorem exec_violationAbort_of_le (hc : s.count ≤ s.cfg.capacity) :
    exec .violationAbort s = .next (State.dsReset { s with
      mode := .hunting, frameOut := if s.count = 0 then s.frameOut else some (heldFrame s s.count) }) :=
  congrArg answerOf (endFrame_of_le (s.takePair true) hc)

/-- Settles O24, field by field of the state VIOLATION_ABORT answers. -/
theorem violationAbortResult : Obligations.ViolationAbortResult := fun _ hc =>
  ⟨_, exec_violationAbort_of_le hc, rfl, fresh_dsReset _, fun _ => rfl, rfl, ⟨rfl, rfl, rfl⟩, rfl⟩

/-- The reference's own level trips exactly when the counted violation exceeds the tolerance (R75, R123). -/
theorem flagTrip_ref_iff : flagTrip s s.ref = true ↔ s.viol + 1 > s.cfg.tolerance := by
  simp [flagTrip, flagEq]

/-- A tripping pair's word is the only one that decodes to VIOLATION_ABORT. -/
theorem outcomeWord_of_flagTrip (h : flagTrip s b = true) : outcomeWord s b = 0b11000#5 := by
  obtain ⟨henc, -⟩ := encodeOfDecode _ _ (decode_of_flagTrip h)
  exact (EncWord.outcome.inj henc).symm

/-- A tripping pair gives no bit: PAIR_SECOND is VIOLATION_ABORT (R122, R123). -/
theorem exec_pairSecond_of_flagTrip (h : flagTrip s b = true) :
    exec (.pairSecond b) s = exec .violationAbort s := by
  change answerOf (s.pairSecond b) = _
  rw [pairSecond_eq, if_pos h]
  rfl

/-- Settles O23: the pair trips, so what is emitted and reset is VIOLATION_ABORT's. -/
theorem violationBeyondToleranceEndsFrame : Obligations.ViolationBeyondToleranceEndsFrame := by
  intro s hc hv
  have htrip : flagTrip s s.ref = true := flagTrip_ref_iff.2 hv
  obtain ⟨t, ht, hmode, hfresh, -, hwin, henv, hframe⟩ := violationAbortResult s hc
  exact ⟨outcomeWord_of_flagTrip htrip, t, (exec_pairSecond_of_flagTrip htrip).trans ht, hmode, hfresh, hwin, henv,
    hframe⟩

/-- Settles O25: both pairs hand the same bit to the assembler, from the same state. -/
theorem toleratedViolationDecodesFromReference : Obligations.ToleratedViolationDecodesFromReference := by
  intro s hv
  refine congrArg answerOf ?_
  calc s.pairSecond s.ref
      = ({ s with phase := false, viol := s.viol + 1 } : State).assemble (manBit s.ref) := by
        rw [pairSecond_of_eq, if_neg (Nat.not_lt.2 hv)]
    _ = ({ s with viol := s.viol + 1 } : State).pairSecond (!s.ref) :=
        (pairSecond_of_ne { s with viol := s.viol + 1 } (!s.ref) (Bool.not_ne_self s.ref)).symm

/-- Away from the marker position the resync test reads no byte and fails (R143). -/
theorem resyncHit_of_not_marker_position (h : ¬ (s.bitpos = 2#3 ∧ 2 ≤ s.count)) : s.resyncHit = .ok false :=
  if_neg h

/-- Away from the marker position and a byte's last bit ASSEMBLE only shifts, whatever the count (R140, R141). -/
theorem assemble_of_shift_only (bit : Bool) (hlast : s.bitpos ≠ 7#3) (hmark : s.bitpos = 1#3 → s.count < 2) :
    s.assemble bit = .ok (s.shiftIn bit) := by
  have hno : (s.shiftIn bit).resyncHit = .ok false := by
    refine resyncHit_of_not_marker_position fun ⟨hpos, hcount⟩ => ?_
    rw [State.shiftIn_bitpos] at hpos
    exact absurd (hmark (by bv_omega)) (Nat.not_lt.2 hcount)
  have hopen : (s.shiftIn bit).bitpos ≠ 0#3 := by
    rw [State.shiftIn_bitpos]; bv_omega
  simp only [State.assemble, hno, if_neg hopen]

/-- Settles O26: the valid pair's second level is the bit, and the assembler only shifts it in. -/
theorem validPairGivesSecondLevel : Obligations.ValidPairGivesSecondLevel := by
  intro b s hb hlast hmark
  change answerOf (s.pairSecond b) = _
  rw [pairSecond_of_ne s b hb, assemble_of_shift_only (s := { s with phase := false }) b hlast hmark, answerOf_ok,
    State.shiftIn, shiftAcc_eq]

end Sys2Proof.Proofs
end

section
/-! The assembler's outcomes within the buffer (R141 to R147): the state each instruction answers, as one record, and
from it the effect and the frame of each. -/

namespace Sys2Proof.Proofs

open Sys2Proof.Machine Sys2Proof.Safety

variable {s : State}

/-- R75's accumulator with the pair's bit in is R141's shift of `~ref`. -/
theorem accNext_eq (s : State) : accNext s = s.acc.extractLsb' 0 7 ++ BitVec.ofBool (!s.ref) :=
  shiftAcc_eq s.acc (!s.ref)

/-- Settles O27, field by field of the pair taken and shifted in. -/
theorem bitAccumulateResult : Obligations.BitAccumulateResult := fun e s =>
  ⟨s.decodePair e, rfl, accNext_eq s, BitVec.toNat_add s.bitpos 1, rfl, rfl, rfl, rfl, rfl, rfl, rfl, ⟨rfl, rfl, rfl⟩,
    fun _ => rfl⟩

theorem exec_byteStore_of_lt (e : Bool) (hc : s.count < s.cfg.capacity) :
    exec (.byteStore e) s =
      .next { s.decodePair e with buf := s.buf.write s.count (accNext s), count := s.count + 1 } :=
  congrArg answerOf (storeByte_of_lt (s.decodePair e) hc)

/-- Settles O28: one write at index `count`, and every other field is the one of the pair shifted in. -/
theorem byteStoreResult : Obligations.ByteStoreResult := by
  intro e s hc
  refine ⟨_, exec_byteStore_of_lt e hc, ?_, fun a ha => ?_, rfl, accNext_eq s, rfl, rfl, rfl, rfl, rfl, rfl, rfl,
    rfl, rfl, rfl⟩
  · rw [Memory.read_write, if_pos rfl, accNext_eq]
  · rw [Memory.read_write, if_neg ha]

/-- The frame of the `n` bytes in place before index `n` is written, and the byte written there. -/
theorem heldFrame_write_bytes (s : State) (n : Nat) (v : Byte) :
    (heldFrame { s with buf := s.buf.write n v } (n + 1)).bytes =
      (List.range n).map (fun i => s.buf.read i) ++ [v] := by
  have hold : (List.range n).map (fun i => (s.buf.write n v).read i) =
      (List.range n).map (fun i => s.buf.read i) :=
    List.map_congr_left fun i hi => by
      rw [Memory.read_write, if_neg (Nat.ne_of_lt (List.mem_range.1 hi))]
  simp only [heldFrame, List.range_succ, List.map_append, List.map_singleton]
  rw [hold, Memory.read_write, if_pos rfl]

/-- A held frame carries the mark exactly when R176 gives it. -/
theorem heldFrame_crc16Ok_iff (s : State) (n : Nat) :
    (heldFrame s n).crc16Ok = true ↔
      s.cfg.crc16MinLen ≤ n ∧ crc16 s.cfg.crc16Reflected (heldFrame s n).bytes = 0x0000#16 :=
  decide_eq_true_iff

theorem exec_maxlenComplete_of_lt (e : Bool) (hc : s.count < s.cfg.capacity) :
    exec (.maxlenComplete e) s = .next (State.dsReset { s.decodePair e with
      mode := .hunting
      frameOut := some (heldFrame { s with buf := s.buf.write s.count (accNext s) } (s.count + 1)) }) :=
  congrArg answerOf (completeFrame_of_lt (s.decodePair e) hc)

/-- Settles O30: the frame is the one held once the byte is stored. -/
theorem maxlenCompleteResult : Obligations.MaxlenCompleteResult := by
  intro e s hc
  refine ⟨_, _, exec_maxlenComplete_of_lt e hc, rfl, fresh_dsReset _, fun _ => rfl, rfl, ⟨rfl, rfl, rfl⟩, rfl, rfl, ?_,
    heldFrame_crc16Ok_iff _ _⟩
  rw [heldFrame_write_bytes, accNext_eq]

theorem exec_resync_of_le (e : Bool) (h2 : 2 ≤ s.count) (hc : s.count ≤ s.cfg.capacity) :
    exec (.resync e) s =
      .next (State.dsReset { s.decodePair e with frameOut := some (heldFrame s (s.count - 1)) }) := by
  have h1 : s.count ≠ 1 := by omega
  have hsplit := splitFrame_of_le (s.decodePair e) (by simp only [State.decodePair_count]; omega)
    (by simp only [State.decodePair_count, State.decodePair_cfg]; omega)
  rw [State.decodePair_count, if_neg h1] at hsplit
  exact congrArg answerOf hsplit

/-- Settles O31, field by field of the state RESYNC answers. -/
theorem resyncResult : Obligations.ResyncResult := fun e _ h2 hc =>
  ⟨_, exec_resync_of_le e h2 hc, rfl, fresh_dsReset _, fun _ => rfl, rfl, ⟨rfl, rfl, rfl⟩, rfl⟩

end Sys2Proof.Proofs
end

section
/-! Which outcome a decoded bit has (R75, R143, R151): the flags `rs`, `bc` and `full` as conditions on the state, and
the instruction that each of them makes a second symbol run. -/

namespace Sys2Proof.Proofs

open Sys2Proof.Machine Sys2Proof.Safety

variable {s : State} {b : Sym}

/-- R122's condition for an abort is the flag `trip` of R75. -/
theorem flagTrip_eq_false (h : ¬ (b = s.ref ∧ s.viol + 1 > s.cfg.tolerance)) : flagTrip s b = false := by
  simpa [flagTrip, flagEq] using h

/-- The two bits a marker ends in are the accumulator's lowest and the bit shifted in (R143). -/
theorem shiftAcc_low_two_iff (acc : Byte) (bit : Bool) (c : Config) :
    (shiftAcc acc bit).extractLsb' 0 2 = resyncLow2 c ↔
      acc.getLsbD 0 = c.preLog.getLsbD 1 ∧ bit = c.preLog.getLsbD 0 := by
  have hbit (i : Nat) (hi : i < 2) : ((shiftAcc acc bit).extractLsb' 0 2).getLsbD i =
      if i = 0 then bit else acc.getLsbD (i - 1) := by
    rw [BitVec.getLsbD_extractLsb', Nat.zero_add, shiftAcc_getLsbD _ _ _ (by omega)]
    simp [hi]
  have hlow (i : Nat) (hi : i < 2) : (resyncLow2 c).getLsbD i = c.preLog.getLsbD i := by
    rw [resyncLow2, BitVec.getLsbD_extractLsb', Nat.zero_add]
    simp [hi]
  constructor
  · intro h
    refine ⟨?_, ?_⟩
    · rw [← hlow 1 (by omega), ← h, hbit 1 (by omega)]; rfl
    · rw [← hlow 0 (by omega), ← h, hbit 0 (by omega)]; rfl
  · rintro ⟨h1, h0⟩
    refine BitVec.eq_of_getLsbD_eq fun i hi => ?_
    rw [hbit i hi, hlow i hi]
    rcases i with _ | _ | i
    · exact h0
    · exact h1
    · omega

/-- The flag `rs` of a decoded bit: the second of its byte, and it completes the marker (R75, R143). -/
theorem flagRs_iff (ht : flagTrip s b = false) :
    flagRs s b = true ↔ s.bitpos = 1#3 ∧ CompletesMarker s (!s.ref) := by
  have hpos : bitposNext s = 2#3 ↔ s.bitpos = 1#3 := by rw [bitposNext]; bv_omega
  simp only [flagRs, ht, Bool.not_false, Bool.true_and, Bool.and_eq_true, beq_iff_eq, decide_eq_true_eq, hpos,
    and_assoc]
  exact Iff.rfl

/-- The flag `bc` of a decoded bit: the byte's last (R75). -/
theorem flagBc_iff (ht : flagTrip s b = false) : flagBc s b = true ↔ s.bitpos = 7#3 := by
  have hpos : bitposNext s = 0#3 ↔ s.bitpos = 7#3 := by rw [bitposNext]; bv_omega
  simp only [flagBc, ht, Bool.not_false, Bool.true_and, beq_iff_eq, hpos]

/-- `trip` and `rs` exclude each other (R75). -/
theorem flagTrip_of_flagRs (h : flagRs s b = true) : flagTrip s b = false := by
  cases ht : flagTrip s b with
  | true => simp [flagRs, ht] at h
  | false => rfl

theorem decode_of_flagRs (h : flagRs s b = true) :
    decode (.outcome (outcomeWord s b)) = .ok (.resync (flagEq s b)) := by
  rw [decode_outcomeWord, flagTrip_of_flagRs h, h]
  rfl

/-- The byte's last bit is no marker's: `bc` without `full` is BYTE_STORE. -/
theorem decode_of_last_bit (ht : flagTrip s b = false) (hb : s.bitpos = 7#3) (hf : s.count + 1 ≠ s.cfg.capacity) :
    decode (.outcome (outcomeWord s b)) = .ok (.byteStore (flagEq s b)) := by
  have hbc : flagBc s b = true := (flagBc_iff ht).2 hb
  have hrs : flagRs s b ≠ true := fun h => by
    have hmark := ((flagRs_iff ht).1 h).1
    rw [hb] at hmark
    exact absurd hmark (by decide)
  have hfull : flagFull s b = false := by simp [flagFull, hf]
  rw [decode_outcomeWord, ht, if_neg hrs, hfull, hbc]
  rfl

theorem decode_of_bit_only (ht : flagTrip s b = false) (hrs : flagRs s b ≠ true) (hb : s.bitpos ≠ 7#3) :
    decode (.outcome (outcomeWord s b)) = .ok (.bitAccumulate (flagEq s b)) := by
  have hbc : flagBc s b ≠ true := fun h => hb ((flagBc_iff ht).1 h)
  have hfull : flagFull s b ≠ true := fun h => hbc (flagBc_of_flagFull h)
  rw [decode_outcomeWord, ht, if_neg hrs, if_neg hfull, if_neg hbc]
  rfl

/-- Only the flag `rs` gives a RESYNC word (R75). -/
theorem flagRs_of_decode_resync {e : Bool} (h : decode (.outcome (outcomeWord s b)) = .ok (.resync e)) :
    flagRs s b = true := by
  by_contra hrs
  rw [decode_outcomeWord, if_neg hrs] at h
  split_ifs at h <;> cases h

/-- Settles O32: the condition is the flag `rs`, which makes the pair a RESYNC and without which the bit accumulates. -/
theorem markerConditionDecidesSplit : Obligations.MarkerConditionDecidesSplit := by
  intro b s hpair hc hit
  have ht : flagTrip s b = false := flagTrip_eq_false hpair
  have hrs : flagRs s b = true ↔ hit := by
    rw [flagRs_iff ht, CompletesMarker, shiftAcc_low_two_iff]
    exact Iff.rfl
  refine ⟨fun h => ?_, fun h hlast => ?_, fun hlast e he => ?_⟩
  · have hdec := decode_of_flagRs (hrs.2 h)
    obtain ⟨-, h2, -⟩ := h
    obtain ⟨t, hx, hmode, hfresh, -, -, -, hframe⟩ := resyncResult (flagEq s b) s h2 hc
    exact ⟨t, (secondSymbolRunsItsOutcome s b _ hc hdec).trans hx, hmode, hfresh, hframe⟩
  · rw [secondSymbolRunsItsOutcome s b _ hc (decode_of_bit_only ht (fun hr => h (hrs.1 hr)) hlast), ← accNext_eq]
    rfl
  · obtain ⟨hsecond, -⟩ := (flagRs_iff ht).1 (flagRs_of_decode_resync he)
    rw [hlast] at hsecond
    exact absurd hsecond (by decide)

/-- Settles O33: the byte's last bit is MAXLEN_COMPLETE where it fills the buffer, and BYTE_STORE elsewhere. -/
theorem capacityDecidesCompletion : Obligations.CapacityDecidesCompletion := by
  intro b s hpair hb hc
  have ht : flagTrip s b = false := flagTrip_eq_false hpair
  by_cases hcap : s.count + 1 = s.cfg.capacity
  · have hfull : flagFull s b = true := by simp [flagFull, (flagBc_iff ht).2 hb, hcap]
    obtain ⟨t, f, hx, hmode, hfresh, -, -, -, hframe, hlen, -⟩ := maxlenCompleteResult (flagEq s b) s hc
    exact ⟨t, (secondSymbolRunsItsOutcome s b _ hc.le (decode_of_flagFull hfull)).trans hx,
      fun _ => ⟨hmode, hfresh, f, hframe, hlen.trans hcap⟩, fun hlt => absurd hcap hlt.ne⟩
  · exact ⟨_, (secondSymbolRunsItsOutcome s b _ hc.le (decode_of_last_bit ht hb hcap)).trans
      (exec_byteStore_of_lt _ hc), fun h => absurd h hcap, fun _ => ⟨rfl, rfl, rfl⟩⟩

/-- A machine of capacity 3 in the middle of the pair that completes the marker, after the byte `x` and the marker's
own byte. -/
def beforeMarkerEnd (x : Byte) : State :=
  { State.reset with
    mode := .locked, phase := true, bitpos := 1#3, count := 2
    buf := (Memory.write [] 0 x).write 1 (resyncByte Config.reference)
    cfg := { Config.reference with capacity := 3 } }

theorem read_beforeMarkerEnd_zero (x : Byte) : (beforeMarkerEnd x).buf.read 0 = x := by
  simp [beforeMarkerEnd, Memory.read_write]

theorem read_beforeMarkerEnd_one (x : Byte) :
    (beforeMarkerEnd x).buf.read 1 = resyncByte (beforeMarkerEnd x).cfg := by
  rw [beforeMarkerEnd, Memory.read_write, if_pos rfl]
  rfl

theorem inv_beforeMarkerEnd (x : Byte) : Inv (beforeMarkerEnd x) where
  legal := show 1 ≤ 3 by decide
  huntingFresh hm := nomatch hm
  counters := ⟨show 2 < 3 by decide, Nat.zero_le _⟩
  buffer := ⟨Memory.write_wf _ 1 (resyncByte Config.reference) (Memory.write_wf _ 0 x Memory.wf_nil),
    Memory.write_below _ 1 (resyncByte Config.reference) (Memory.write_below _ 0 x (Memory.below_nil 0))⟩
  output _ hf := nomatch hf

/-- Its high symbol brings the marker's last bit. -/
theorem flagRs_beforeMarkerEnd (x : Byte) : flagRs (beforeMarkerEnd x) true = true :=
  (flagRs_iff (b := true) rfl).2 ⟨rfl, le_refl 2, read_beforeMarkerEnd_one x, by
    rw [shiftAcc_low_two_iff]
    simp [beforeMarkerEnd, State.reset, Config.reference]⟩

/-- Settles O34: a RESYNC needs two bytes stored, which the invariant keeps below a capacity of 2; at 3 the state above
has one. -/
theorem noResyncInTwoBytes : Obligations.NoResyncInTwoBytes := by
  refine ⟨fun s b e hinv hcap he => ?_, fun x => ?_⟩
  · have hrs := flagRs_of_decode_resync he
    obtain ⟨-, h2, -⟩ := (flagRs_iff (flagTrip_of_flagRs hrs)).1 hrs
    have hlt := hinv.counters.1
    omega
  · have hdec : decode (.outcome (outcomeWord (beforeMarkerEnd x) true)) = .ok (.resync false) :=
      decode_of_flagRs (flagRs_beforeMarkerEnd x)
    have hle : (beforeMarkerEnd x).count ≤ (beforeMarkerEnd x).cfg.capacity := show 2 ≤ 3 by decide
    refine ⟨beforeMarkerEnd x, _, true, _, inv_beforeMarkerEnd x, rfl, rfl, rfl, rfl, read_beforeMarkerEnd_zero x,
      read_beforeMarkerEnd_one x, hdec,
      (secondSymbolRunsItsOutcome _ _ _ hle hdec).trans (exec_resync_of_le false (le_refl 2) hle), rfl, ?_⟩
    exact congrArg (fun y => [y]) (read_beforeMarkerEnd_zero x)

end Sys2Proof.Proofs
end

section
/-! A marker inside a byte's symbols (R149): its second bit splits the frame, and the six that follow begin the next. -/

namespace Sys2Proof.Proofs

open Sys2Proof.Machine Sys2Proof.Safety

variable {s : State}

/-- ASSEMBLE of the bit that completes the marker is the split (R143, R144). -/
theorem assemble_of_marker {b : Bool} (hc : s.count ≤ s.cfg.capacity) (hpos : s.bitpos = 1#3)
    (hm : CompletesMarker s b) : s.assemble b = (s.shiftIn b).splitFrame := by
  obtain ⟨h2, hbyte, hlow⟩ := hm
  rw [assemble_of_le s b hc, if_pos]
  simp [hpos, h2, hbyte, hlow]

/-- The two symbols of the bit that completes the marker emit the bytes before it and reset the Decoder State. -/
theorem feed_marker_bit_splits (b : Bool) (rest : List Sym) (hmode : s.mode = .locked) (hp : s.phase = false)
    (hc : s.count ≤ s.cfg.capacity) (hpos : s.bitpos = 1#3) (hm : CompletesMarker s b) :
    feed (bitSyms b ++ rest) s =
      feed rest (State.dsReset { s with frameOut := some (heldFrame s (s.count - 1)) }) := by
  have h2 : 2 ≤ s.count := hm.1
  have h1 : s.count ≠ 1 := by omega
  refine feed_bitSyms s _ b rest hmode hp ?_
  rw [assemble_of_marker (s := { s with ref := !b, phase := false }) hc hpos hm,
    splitFrame_of_le _ (by simp only [State.shiftIn_count]; omega)
      (by simp only [State.shiftIn_count, State.shiftIn_cfg]; omega), State.shiftIn_count, if_neg h1]
  rfl

/-- A byte's low six bits, shifted into an empty accumulator, are the byte without its top two. -/
theorem foldl_shiftAcc_low_six (x : Byte) :
    [x.getLsbD 5, x.getLsbD 4, x.getLsbD 3, x.getLsbD 2, x.getLsbD 1, x.getLsbD 0].foldl shiftAcc 0x00#8 =
      (x.extractLsb' 0 6).setWidth 8 := by
  revert x; decide

/-- From a byte boundary after a stored marker byte, the symbols of a byte that starts with the marker's two bits split
the frame after them and accumulate the other six (R149). -/
theorem feed_byteSyms_splits (x : Byte) (hmode : s.mode = .locked) (hp : s.phase = false) (hb : s.bitpos = 0#3)
    (h2 : 2 ≤ s.count) (hc : s.count ≤ s.cfg.capacity) (hbyte : s.buf.read (s.count - 1) = resyncByte s.cfg)
    (hlow : x.extractLsb' 6 2 = resyncLow2 s.cfg) :
    feed (byteSyms x) s = .next
      (afterBits (State.dsReset { s with frameOut := some (heldFrame s (s.count - 1)) })
        [x.getLsbD 5, x.getLsbD 4, x.getLsbD 3, x.getLsbD 2, x.getLsbD 1, x.getLsbD 0]) := by
  have hsplit : byteSyms x = bitSyms (x.getLsbD 7) ++ (bitSyms (x.getLsbD 6) ++
      ([x.getLsbD 5, x.getLsbD 4, x.getLsbD 3, x.getLsbD 2, x.getLsbD 1, x.getLsbD 0].flatMap bitSyms ++ [])) := rfl
  have hmarker : CompletesMarker (afterBits s [x.getLsbD 7]) (x.getLsbD 6) :=
    ⟨h2, hbyte, (shiftAcc_top_two x s.acc).trans hlow⟩
  rw [hsplit, feed_bit_accumulates _ _ hmode hp hc (by simp [hb]) (by simp [hb]),
    feed_marker_bit_splits (s := afterBits s _) _ _ hmode rfl hc (by simp [afterBits, hb]) hmarker]
  exact feed_bits_accumulate (s := State.dsReset { s with frameOut := some (heldFrame s (s.count - 1)) }) _ [] hmode rfl
    (Nat.zero_le _) (by simp) (.inr (by simp))

/-- Settles O37: the state after the byte is a fresh one, with the frame emitted, after six bits. -/
theorem markerInDataSplitsFrame : Obligations.MarkerInDataSplitsFrame := fun _ x hmode hp hb h2 hc hbyte hlow =>
  ⟨_, feed_byteSyms_splits x hmode hp hb h2 hc hbyte hlow, hmode, rfl, rfl, rfl, rfl, foldl_shiftAcc_low_six x, rfl,
    rfl, ⟨rfl, rfl, rfl⟩⟩

end Sys2Proof.Proofs
end

section
/-! The driven frame (R79, R152, R176): every operation keeps it a frame of the configuration in force, and a step
begins with none. -/

namespace Sys2Proof.Proofs

open Sys2Proof.Machine Sys2Proof.Safety

variable {s t : State}

theorem frameOk_heldFrame {n : Nat} (h1 : 1 ≤ n) (hn : n ≤ s.cfg.capacity) : FrameOk s.cfg (heldFrame s n) :=
  ⟨h1, hn, by simp only [heldFrame, List.length_map, List.length_range], heldFrame_crc16Ok_iff s n⟩

theorem outputOk_of_none (h : s.frameOut = none) : OutputOk s := fun _ hf => (nomatch h.symm.trans hf)

theorem finalize_keeps_outputOk (ho : OutputOk s) (h : s.finalize = .ok t) : OutputOk t := by
  obtain ⟨hle, rfl⟩ := finalize_ok s t h
  intro f hf
  simp only [State.dsReset_frameOut] at hf
  split at hf
  · exact ho f hf
  · next h0 =>
    obtain rfl := Option.some.inj hf
    exact frameOk_heldFrame (Nat.one_le_iff_ne_zero.2 h0) hle

theorem endFrame_keeps_outputOk (ho : OutputOk s) (h : s.endFrame = .ok t) : OutputOk t := by
  rw [State.endFrame] at h
  cases hf : s.finalize with
  | error f => rw [hf] at h; cases h
  | ok u =>
    rw [hf] at h
    obtain rfl := Except.ok.inj h
    have hu : OutputOk u := finalize_keeps_outputOk ho hf
    exact hu

theorem splitFrame_keeps_outputOk (ho : OutputOk s) (h : s.splitFrame = .ok t) : OutputOk t := by
  obtain ⟨-, hf⟩ := splitFrame_ok h
  exact finalize_keeps_outputOk (s := { s with count := s.count - 1 }) ho hf

theorem storeByte_keeps_outputOk (ho : OutputOk s) (h : s.storeByte = .ok t) : OutputOk t := by
  obtain ⟨-, rfl⟩ := storeByte_ok h
  exact ho

theorem completeFrame_keeps_outputOk (ho : OutputOk s) (h : s.completeFrame = .ok t) : OutputOk t := by
  obtain ⟨u, hs, he⟩ := completeFrame_ok h
  exact endFrame_keeps_outputOk (storeByte_keeps_outputOk ho hs) he

theorem huntShift_keeps_outputOk (b : Sym) (ho : OutputOk s) : OutputOk (s.huntShift b) := by
  rcases huntShift_cases s b with ⟨-, h⟩ | ⟨-, h⟩ <;> rw [h] <;> exact ho

theorem pairSecond_keeps_outputOk {b : Sym} (ho : OutputOk s) (h : s.pairSecond b = .ok t) : OutputOk t := by
  rcases pairSecond_ok h with ⟨-, h⟩ | h | ⟨-, h⟩ | h | rfl
  · exact endFrame_keeps_outputOk (s := s.takePair true) ho h
  · exact splitFrame_keeps_outputOk (s := s.decodePair (flagEq s b)) ho h
  · exact completeFrame_keeps_outputOk (s := s.decodePair (flagEq s b)) ho h
  · exact storeByte_keeps_outputOk (s := s.decodePair (flagEq s b)) ho h
  · exact ho

/-- A symbol that answers was a hunting shift, a first symbol cached or a second one (R200). -/
theorem onSymbol_ok {b : Sym} (h : s.onSymbol b = .ok t) :
    t = s.huntShift b ∨ t = s.pairFirst b ∨ s.pairSecond b = .ok t := by
  cases hm : s.mode with
  | hunting => exact .inl (Except.ok.inj ((onSymbol_hunting s b hm).symm.trans h)).symm
  | locked =>
    cases hp : s.phase with
    | false => exact .inr (.inl (Except.ok.inj ((onSymbol_first s b hm hp).symm.trans h)).symm)
    | true => exact .inr (.inr ((onSymbol_second s b hm hp).symm.trans h))

theorem onSymbol_keeps_outputOk {b : Sym} (ho : OutputOk s) (h : s.onSymbol b = .ok t) : OutputOk t := by
  rcases onSymbol_ok h with rfl | rfl | h
  · exact huntShift_keeps_outputOk b ho
  · exact ho
  · exact pairSecond_keeps_outputOk ho h

/-- Whatever the state, what a step drives is a frame of the configuration then in force (R79, R80). -/
theorem step_outputOk (h : step s = .next t) : OutputOk t := by
  rcases step_next_cases s t h with ⟨-, -, rfl⟩ | ⟨x, rest, -, -, hx⟩
  · exact outputOk_of_none rfl
  have ho : OutputOk (stateAtExec s x rest) := outputOk_of_none rfl
  rcases decodePort_cases x.word with ⟨-, y, hy⟩ | ⟨-, y, hy⟩ | ⟨-, b, hb⟩
  · rw [hy] at hx
    obtain rfl := Host.Outcome.next.inj hx
    exact ho
  · rw [hy] at hx
    obtain rfl := Host.Outcome.next.inj hx
    exact ho
  · rw [exec_of_symbol _ b _ hb, answerOf_next] at hx
    exact onSymbol_keeps_outputOk ho hx

/-- Settles O43, by R206 (5) of the state after the step. -/
theorem emittedFrameFitsBuffer : Obligations.EmittedFrameFitsBuffer := by
  intro s t f _ h hf
  obtain ⟨h1, hle, hlen, -⟩ := step_outputOk h f hf
  exact ⟨h1, hle, hlen⟩

end Sys2Proof.Proofs
end

section
/-! FINALIZE as an instruction (R171 to R173), and the mark of a frame a step emits (R176). -/

namespace Sys2Proof.Proofs

open Sys2Proof.Machine Sys2Proof.Safety

variable {s t : State}

theorem exec_finalize_of_le (h : s.count ≤ s.cfg.capacity) :
    exec .finalize s = .next (State.dsReset { s with
      frameOut := if s.count = 0 then s.frameOut else some (heldFrame s s.count) }) :=
  congrArg answerOf (finalize_of_le s h)

/-- FINALIZE answers only within the buffer (R53). -/
theorem count_le_of_exec_finalize (h : exec .finalize s = .next t) : s.count ≤ s.cfg.capacity :=
  (finalize_ok s t ((answerOf_next _ t).1 h)).1

/-- Settles O38, field by field of the state FINALIZE answers. -/
theorem finalizeResult : Obligations.FinalizeResult := fun _ h =>
  ⟨_, exec_finalize_of_le h, fresh_dsReset _, fun _ => rfl, rfl, rfl, ⟨rfl, rfl, rfl⟩, rfl⟩

/-- A held frame depends on the buffer and on the two CRC fields of the configuration (R173). -/
theorem heldFrame_congr {n : Nat} (hbuf : t.buf = s.buf) (hlen : t.cfg.crc16MinLen = s.cfg.crc16MinLen)
    (hrefl : t.cfg.crc16Reflected = s.cfg.crc16Reflected) : heldFrame t n = heldFrame s n := by
  simp only [heldFrame, hbuf, hlen, hrefl]

/-- FINALIZE from a state that agrees with `s` on what it reads emits the frame `s` holds (R173). -/
theorem exec_finalize_of_agree {u : State} (hcount : u.count = s.count) (hbuf : u.buf = s.buf)
    (hout : u.frameOut = s.frameOut) (hcap : u.cfg.capacity = s.cfg.capacity)
    (hlen : u.cfg.crc16MinLen = s.cfg.crc16MinLen) (hrefl : u.cfg.crc16Reflected = s.cfg.crc16Reflected)
    (h : s.count ≤ s.cfg.capacity) :
    exec .finalize u = .next (State.dsReset { u with
      frameOut := if s.count = 0 then s.frameOut else some (heldFrame s s.count) }) := by
  rw [exec_finalize_of_le (by rw [hcount, hcap]; exact h), hcount, hout, heldFrame_congr hbuf hlen hrefl]

/-- Settles O39: the state with the other elements replaced agrees with `s` on what FINALIZE reads. -/
theorem finalizeReadsOnlyCountAndBuffer : Obligations.FinalizeReadsOnlyCountAndBuffer := by
  intro s t m w p r a k v c hcap hlen hrefl h
  have hle := count_le_of_exec_finalize h
  obtain rfl := Host.Outcome.next.inj ((exec_finalize_of_le hle).symm.trans h)
  refine ⟨rfl, rfl, ⟨rfl, rfl, rfl⟩, ?_⟩
  exact exec_finalize_of_agree rfl rfl rfl hcap hlen hrefl hle

/-- Settles O40, by R176 of the frame the state after the step drives. -/
theorem markExactlyOnZeroResidue : Obligations.MarkExactlyOnZeroResidue := by
  intro s t f h hf
  obtain ⟨-, -, hlen, hmark⟩ := step_outputOk h f hf
  exact ⟨hlen.symm, hmark⟩

end Sys2Proof.Proofs
end

section
/-! Which steps emit a frame (R170): the second symbols whose outcome is VIOLATION_ABORT, RESYNC or MAXLEN_COMPLETE. -/

namespace Sys2Proof.Proofs

open Sys2Proof.Machine Sys2Proof.Safety

variable {s t : State} {b : Sym}

theorem storeByte_frameOut (h : s.storeByte = .ok t) : t.frameOut = s.frameOut := by
  obtain ⟨-, rfl⟩ := storeByte_ok h
  rfl

/-- Without `trip`, `rs` and `full` a pair only accumulates its bit or stores a byte (R75). -/
theorem pairSecond_frameOut_or_flag (hc : s.count ≤ s.cfg.capacity) (h : s.pairSecond b = .ok t) :
    t.frameOut = s.frameOut ∨ flagTrip s b = true ∨ flagRs s b = true ∨ flagFull s b = true := by
  cases htrip : flagTrip s b with
  | true => exact .inr (.inl rfl)
  | false =>
    rw [pairSecond_eq, htrip, if_neg Bool.false_ne_true, assemble_of_flags hc htrip] at h
    split_ifs at h with hrs hbc hfull
    · exact .inr (.inr (.inl hrs))
    · exact .inr (.inr (.inr hfull))
    · exact .inl (storeByte_frameOut (s := s.decodePair (flagEq s b)) h)
    · obtain rfl := Except.ok.inj h
      exact .inl rfl

/-- A symbol that changes the driven frame is a second one with one of the three outcomes. -/
theorem onSymbol_emits (hc : s.count ≤ s.cfg.capacity) (h : s.onSymbol b = .ok t) (hne : t.frameOut ≠ s.frameOut) :
    s.mode = .locked ∧ s.phase = true ∧ ∃ i e, decode (.outcome (outcomeWord s b)) = .ok i ∧
      (i = .violationAbort ∨ i = .resync e ∨ i = .maxlenComplete e) := by
  cases hm : s.mode with
  | hunting =>
    rw [onSymbol_hunting s b hm] at h
    obtain rfl := Except.ok.inj h
    exact absurd (huntShift_frameOut s b) hne
  | locked =>
    cases hp : s.phase with
    | false =>
      rw [onSymbol_first s b hm hp] at h
      obtain rfl := Except.ok.inj h
      exact absurd rfl hne
    | true =>
      rw [onSymbol_second s b hm hp] at h
      refine ⟨rfl, rfl, ?_⟩
      rcases pairSecond_frameOut_or_flag hc h with hk | htrip | hrs | hfull
      · exact absurd hk hne
      · exact ⟨_, false, decode_of_flagTrip htrip, .inl rfl⟩
      · exact ⟨_, flagEq s b, decode_of_flagRs hrs, .inr (.inl rfl)⟩
      · exact ⟨_, flagEq s b, decode_of_flagFull hfull, .inr (.inr rfl)⟩

/-- Settles O44: a step begins with no frame driven, and only a symbol can change that. -/
theorem framesComeFromThreeOutcomes : Obligations.FramesComeFromThreeOutcomes := by
  intro s t f hinv h hf
  rcases step_next_cases s t h with ⟨-, -, rfl⟩ | ⟨x, rest, hin, ⟨-, hacc⟩, hx⟩
  · cases hf
  rcases decodePort_cases x.word with ⟨-, y, hy⟩ | ⟨-, y, hy⟩ | ⟨hr, b, hb⟩
  · rw [hy] at hx
    obtain rfl := Host.Outcome.next.inj hx
    cases hf
  · rw [hy] at hx
    obtain rfl := Host.Outcome.next.inj hx
    cases hf
  · have hcfg : x.cfg.getD s.cfg = s.cfg := hacc.resolve_right (by simp [hr])
    have hc : (stateAtExec s x rest).count ≤ (stateAtExec s x rest).cfg.capacity := by
      rw [stateAtExec, hcfg]
      exact hinv.counters.1.le
    have hne : t.frameOut ≠ (stateAtExec s x rest).frameOut := fun he => nomatch hf.symm.trans he
    rw [exec_of_symbol _ b _ hb, answerOf_next] at hx
    obtain ⟨hm, hp, i, e, hi, ho⟩ := onSymbol_emits hc hx hne
    rw [outcomeWord_stateAtExec rest hcfg] at hi
    exact ⟨hm, hp, x, rest, b, i, e, hin, hb, hi, ho⟩

end Sys2Proof.Proofs
end

section
/-! The CRC-16 register byte by byte (R175, R177): in the non-reflected update a register's high byte meets the next
byte and its low byte moves up; in the reflected one the low byte meets it and the high byte moves down. -/

namespace Sys2Proof.Proofs

open Sys2Proof.Machine

theorem crcByte_left (r : BitVec 16) (b : Byte) :
    crcByte false r b = iterate crcShiftLeft 8 (r ^^^ b.setWidth 16 <<< 8) := rfl

theorem crcByte_right (r : BitVec 16) (b : Byte) :
    crcByte true r b = iterate crcShiftRight 8 (r ^^^ b.setWidth 16) := rfl

theorem crcByte_left_halves (hi lo b : Byte) :
    crcByte false (hi.setWidth 16 <<< 8 ^^^ lo.setWidth 16) b =
      lo.setWidth 16 <<< 8 ^^^ crcByte false 0x0000#16 (hi ^^^ b) := by
  rw [crcByte_left, crcByte_left, BitVec.zero_xor, BitVec.setWidth_xor, BitVec.shiftLeft_xor_distrib,
    BitVec.xor_comm (hi.setWidth 16 <<< 8), BitVec.xor_assoc, iterate_xor _ crcShiftLeft_xor, iterate_left_low]

theorem crcByte_right_halves (hi lo b : Byte) :
    crcByte true (hi.setWidth 16 <<< 8 ^^^ lo.setWidth 16) b =
      hi.setWidth 16 ^^^ crcByte true 0x0000#16 (lo ^^^ b) := by
  rw [crcByte_right, crcByte_right, BitVec.zero_xor, BitVec.setWidth_xor, BitVec.xor_assoc,
    iterate_xor _ crcShiftRight_xor, iterate_right_high]

theorem low_byte_up (r : BitVec 16) : (r.extractLsb' 0 8).setWidth 16 <<< 8 = r <<< 8 := by
  refine BitVec.eq_of_getLsbD_eq fun i hi => ?_
  have hlow : i - 8 < 8 := by omega
  simp [hi, hlow, show i - 8 < 16 by omega]

theorem high_byte_down (r : BitVec 16) : (r.extractLsb' 8 8).setWidth 16 = r >>> 8 := by
  refine BitVec.eq_of_getLsbD_eq fun i hi => ?_
  by_cases h : i < 8
  · simp [hi, h]
  · simp [h, BitVec.getLsbD_of_ge r (8 + i) (by omega)]

/-- Settles O42: the index byte is the half of the register that meets the new byte, and the other half only moves. -/
theorem tableDrivenCrcAgrees : Obligations.TableDrivenCrcAgrees := fun r b =>
  ⟨by rw [← low_byte_up, ← crcByte_left_halves, ← register_halves],
    by rw [← high_byte_down, ← crcByte_right_halves, ← register_halves]⟩

theorem register_eq_halves_iff (r : BitVec 16) (hi lo : Byte) :
    r = hi.setWidth 16 <<< 8 ^^^ lo.setWidth 16 ↔ hi = r.extractLsb' 8 8 ∧ lo = r.extractLsb' 0 8 := by
  constructor
  · rintro rfl
    constructor <;> refine BitVec.eq_of_getLsbD_eq fun i hi => ?_
    · simp [hi, show 8 + i < 16 by omega]
    · simp [hi, show i < 16 by omega]
  · rintro ⟨rfl, rfl⟩
    exact register_halves r

theorem xor_eq_iff_eq_xor {n : Nat} (x y z : BitVec n) : x ^^^ y = z ↔ x = y ^^^ z := by
  rw [← BitVec.xor_left_inj y, BitVec.xor_assoc, BitVec.xor_self, BitVec.xor_zero, BitVec.xor_comm z]

theorem iterate_left_eq_iff (x y : BitVec 16) : iterate crcShiftLeft 8 x = iterate crcShiftLeft 8 y ↔ x = y :=
  ⟨iterate_inj _ crcShiftLeft_inj 8 x y, congrArg _⟩

theorem iterate_right_eq_iff (x y : BitVec 16) : iterate crcShiftRight 8 x = iterate crcShiftRight 8 y ↔ x = y :=
  ⟨iterate_inj _ crcShiftRight_inj 8 x y, congrArg _⟩

/-- The non-reflected register is cleared by its own two bytes, high byte first: before the last byte it must hold just
that byte in its high half, which only a register holding it in its low half is moved to. -/
theorem crcFrom_left_two_eq_zero_iff (r : BitVec 16) (a b : Byte) :
    crcFrom false r [a, b] = 0x0000#16 ↔ a = r.extractLsb' 8 8 ∧ b = r.extractLsb' 0 8 :=
  calc crcByte false (crcByte false r a) b = 0x0000#16
    _ ↔ crcByte false r a ^^^ b.setWidth 16 <<< 8 = 0x0000#16 := iterate_left_eq_iff _ 0x0000#16
    _ ↔ crcByte false r a = b.setWidth 16 <<< 8 := BitVec.xor_eq_zero_iff
    _ ↔ r ^^^ a.setWidth 16 <<< 8 = b.setWidth 16 := by
      rw [← iterate_left_low b, crcByte_left, iterate_left_eq_iff]
    _ ↔ r = a.setWidth 16 <<< 8 ^^^ b.setWidth 16 := xor_eq_iff_eq_xor ..
    _ ↔ a = r.extractLsb' 8 8 ∧ b = r.extractLsb' 0 8 := register_eq_halves_iff r a b

/-- The reflected register is cleared by its own two bytes, low byte first. -/
theorem crcFrom_right_two_eq_zero_iff (r : BitVec 16) (a b : Byte) :
    crcFrom true r [a, b] = 0x0000#16 ↔ a = r.extractLsb' 0 8 ∧ b = r.extractLsb' 8 8 :=
  calc crcByte true (crcByte true r a) b = 0x0000#16
    _ ↔ crcByte true r a ^^^ b.setWidth 16 = 0x0000#16 := iterate_right_eq_iff _ 0x0000#16
    _ ↔ crcByte true r a = b.setWidth 16 := BitVec.xor_eq_zero_iff
    _ ↔ r ^^^ a.setWidth 16 = b.setWidth 16 <<< 8 := by
      conv_lhs => rw [← iterate_right_high b, crcByte_right, iterate_right_eq_iff]
    _ ↔ r = b.setWidth 16 <<< 8 ^^^ a.setWidth 16 := by rw [xor_eq_iff_eq_xor, BitVec.xor_comm]
    _ ↔ b = r.extractLsb' 8 8 ∧ a = r.extractLsb' 0 8 := register_eq_halves_iff r b a
    _ ↔ a = r.extractLsb' 0 8 ∧ b = r.extractLsb' 8 8 := and_comm

/-- Settles O41, for each update from the message's register on. -/
theorem appendedCrcGivesZeroResidue : Obligations.AppendedCrcGivesZeroResidue := by
  intro refl bytes a b
  rw [crc16, crcFrom_append]
  cases refl with
  | false => exact crcFrom_left_two_eq_zero_iff _ a b
  | true => exact crcFrom_right_two_eq_zero_iff _ a b

end Sys2Proof.Proofs
end

section
/-! LINE read back (R183): two digits are their byte, and what follows them tells another byte from the end of the
line. -/

namespace Sys2Proof.Proofs

open Sys2Proof.Machine

theorem hexDigit_inj {m n : BitVec 4} (h : hexDigit m = hexDigit n) : m = n := by
  revert m n; decide

theorem hexDigit_ne_paren (n : BitVec 4) : hexDigit n ≠ '(' := by
  revert n; decide

theorem append_nibbles (b : Byte) : b.extractLsb' 4 4 ++ b.extractLsb' 0 4 = b :=
  BitVec.extractLsb'_append_extractLsb' (w := 4) (len := 4)

theorem hex2_inj {b c : Byte} (h : hex2 b = hex2 c) : b = c := by
  obtain ⟨hhigh, hlow⟩ : hexDigit (b.extractLsb' 4 4) = hexDigit (c.extractLsb' 4 4) ∧
      hexDigit (b.extractLsb' 0 4) = hexDigit (c.extractLsb' 0 4) := by simpa [hex2] using h
  rw [← append_nibbles b, hexDigit_inj hhigh, hexDigit_inj hlow, append_nibbles]

/-- A byte's digits are two, so what follows them is determined too. -/
theorem hex2_append_inj {b c : Byte} {u v : List Char} (h : hex2 b ++ u = hex2 c ++ v) : b = c ∧ u = v := by
  obtain ⟨hdigits, htail⟩ := List.append_inj h rfl
  exact ⟨hex2_inj hdigits, htail⟩

/-- The rest of a line after its last byte: the mark, if any, and the newline. -/
def lineEnd (ok : Bool) : List Char := (if ok then crcMark else []) ++ ['\n']

theorem line_eq (f : Frame) : f.line = hexBytes f.bytes ++ lineEnd f.crc16Ok := List.append_assoc ..

theorem lineEnd_inj {m n : Bool} (h : lineEnd m = lineEnd n) : m = n := by
  revert m n; decide

/-- After the space of another byte stands a digit, and after that of the mark a parenthesis. -/
theorem next_byte_ne_lineEnd (b : Byte) (bs : List Byte) (u : List Char) (ok : Bool) :
    ' ' :: (hexBytes (b :: bs) ++ u) ≠ lineEnd ok := by
  obtain ⟨v, hv⟩ : ∃ v, hexBytes (b :: bs) = hexDigit (b.extractLsb' 4 4) :: v := by
    cases bs <;> exact ⟨_, rfl⟩
  rw [hv]
  cases ok with
  | false => simp [lineEnd]
  | true =>
    intro h
    obtain ⟨hdigit, -⟩ := List.cons.inj (List.cons.inj h).2
    exact hexDigit_ne_paren _ hdigit

theorem hexBytes_cons_cons (b c : Byte) (bs : List Byte) (u : List Char) :
    hexBytes (b :: c :: bs) ++ u = hex2 b ++ ' ' :: (hexBytes (c :: bs) ++ u) := rfl

/-- Byte by byte: the digits agree, and then both lines have another byte or both end. -/
theorem hexBytes_append_lineEnd_inj {b c : Byte} {bs cs : List Byte} {m n : Bool}
    (h : hexBytes (b :: bs) ++ lineEnd m = hexBytes (c :: cs) ++ lineEnd n) : b :: bs = c :: cs ∧ m = n := by
  induction bs generalizing b c cs with
  | nil =>
    cases cs with
    | nil =>
      obtain ⟨rfl, hend⟩ := hex2_append_inj h
      exact ⟨rfl, lineEnd_inj hend⟩
    | cons c' cs => exact absurd (hex2_append_inj h).2.symm (next_byte_ne_lineEnd _ _ _ _)
  | cons b' bs ih =>
    cases cs with
    | nil => exact absurd (hex2_append_inj h).2 (next_byte_ne_lineEnd _ _ _ _)
    | cons c' cs =>
      rw [hexBytes_cons_cons, hexBytes_cons_cons] at h
      obtain ⟨rfl, htail⟩ := hex2_append_inj h
      obtain ⟨hbytes, hmark⟩ := ih (List.cons.inj htail).2
      exact ⟨congrArg _ hbytes, hmark⟩

/-- Settles O55, by the digits and the end of the two lines. -/
theorem lineDeterminesFrame : Obligations.LineDeterminesFrame := by
  intro f g hf hg h
  obtain ⟨b, bs, hb⟩ := List.exists_cons_of_ne_nil hf
  obtain ⟨c, cs, hc⟩ := List.exists_cons_of_ne_nil hg
  rw [line_eq, line_eq, hb, hc] at h
  rw [hb, hc]
  exact hexBytes_append_lineEnd_inj h

end Sys2Proof.Proofs
end

section
/-! The machine's invariant (R206, R28, R29): what ends a frame leaves a fresh Decoder State, a bit shifted in and a byte
stored short of the capacity keep the counters and the buffer in range, and a step is a reset, a wait or one symbol. -/

namespace Sys2Proof.Proofs

open Sys2Proof.Machine Sys2Proof.Safety

variable {s t : State} {b : Sym}

theorem finalize_fresh (h : s.finalize = .ok t) : Fresh t := by
  obtain ⟨-, rfl⟩ := finalize_ok s t h
  exact fresh_dsReset _

theorem endFrame_fresh (h : s.endFrame = .ok t) : Fresh t := by
  rw [endFrame_ok h]
  exact fresh_dsReset _

theorem splitFrame_fresh (h : s.splitFrame = .ok t) : Fresh t := by
  obtain ⟨-, hf⟩ := splitFrame_ok h
  exact finalize_fresh hf

theorem completeFrame_fresh (h : s.completeFrame = .ok t) : Fresh t := by
  obtain ⟨u, -, he⟩ := completeFrame_ok h
  exact endFrame_fresh he

/-- A second symbol ends the frame or, within the tolerance, shifts its bit in, perhaps storing a byte that does not fill
the buffer (R123, R140, R151). -/
theorem pairSecond_fresh_or_inside_frame (hc : s.count ≤ s.cfg.capacity) (h : s.pairSecond b = .ok t) :
    Fresh t ∨ (flagTrip s b = false ∧ (t = s.decodePair (flagEq s b) ∨
      (s.count + 1 ≠ s.cfg.capacity ∧ (s.decodePair (flagEq s b)).storeByte = .ok t))) := by
  rw [pairSecond_eq] at h
  cases htrip : flagTrip s b with
  | true =>
    rw [htrip, if_pos rfl] at h
    exact .inl (endFrame_fresh h)
  | false =>
    rw [htrip, if_neg Bool.false_ne_true, assemble_of_flags hc htrip] at h
    split_ifs at h with hrs hbc hfull
    · exact .inl (splitFrame_fresh h)
    · exact .inl (completeFrame_fresh h)
    · exact .inr ⟨rfl, .inr ⟨fun hcap => hfull (by simp [flagFull, hbc, hcap]), h⟩⟩
    · exact .inr ⟨rfl, .inl (Except.ok.inj h).symm⟩

/-- A fresh Decoder State under a legal configuration has the invariant in either mode. -/
theorem inv_of_fresh (hl : s.cfg.Legal) (hf : Fresh s) (ho : OutputOk s) : Inv s := by
  have ⟨_, _, _, _, hcount, hviol, hbuf⟩ := hf
  refine ⟨hl, fun _ => hf, ⟨?_, ?_⟩, ⟨wf_of_cleared hbuf, ?_⟩, ho⟩
  · rw [hcount]; exact hl
  · rw [hviol]; exact Nat.zero_le _
  · rw [hbuf]; exact Memory.below_nil _

/-- While LOCKED the invariant asks nothing of the pair's registers. -/
theorem huntingFresh_of_locked (hm : s.mode = .locked) : HuntingFresh s := fun hh => nomatch hm.symm.trans hh

/-- A violation short of `trip` is counted within the tolerance (R124, R29). -/
theorem viol_le_of_not_trip (ht : flagTrip s b = false) (hv : s.viol ≤ s.cfg.tolerance) :
    s.viol + (flagEq s b).toNat ≤ s.cfg.tolerance := by
  cases he : flagEq s b with
  | false => exact hv
  | true => simpa [flagTrip, he] using ht

theorem decodePair_keeps_inv (hi : Inv s) (hm : s.mode = .locked) (ht : flagTrip s b = false) :
    Inv (s.decodePair (flagEq s b)) where
  legal := hi.legal
  huntingFresh := huntingFresh_of_locked hm
  counters := ⟨hi.counters.1, viol_le_of_not_trip ht hi.counters.2⟩
  buffer := hi.buffer
  output := hi.output

theorem storeByte_keeps_inv (hi : Inv s) (hm : s.mode = .locked) (hcap : s.count + 1 ≠ s.cfg.capacity)
    (h : s.storeByte = .ok t) : Inv t := by
  obtain ⟨hwf, hbelow⟩ := hi.buffer
  obtain ⟨hlt, rfl⟩ := storeByte_ok h
  exact {
    legal := hi.legal
    huntingFresh := huntingFresh_of_locked hm
    counters := ⟨Nat.lt_of_le_of_ne hlt hcap, hi.counters.2⟩
    buffer := ⟨Memory.write_wf _ _ _ hwf, Memory.write_below _ _ _ hbelow⟩
    output := hi.output }

theorem pairSecond_keeps_inv (hi : Inv s) (hm : s.mode = .locked) (h : s.pairSecond b = .ok t) : Inv t := by
  rcases pairSecond_fresh_or_inside_frame hi.counters.1.le h with hf | ⟨ht, rfl | ⟨hcap, hst⟩⟩
  · obtain ⟨hcfg, -, -⟩ := pairSecond_sameEnvironment h
    exact inv_of_fresh (hcfg ▸ hi.legal) hf (pairSecond_keeps_outputOk hi.output h)
  · exact decodePair_keeps_inv hi hm ht
  · exact storeByte_keeps_inv (decodePair_keeps_inv hi hm ht) hm hcap hst

theorem huntShift_keeps_inv (hi : Inv s) (b : Sym) : Inv (s.huntShift b) := by
  rcases huntShift_cases s b with ⟨-, h⟩ | ⟨-, h⟩ <;> rw [h]
  · exact inv_of_fresh hi.legal (fresh_lock _) hi.output
  · exact ⟨hi.legal, hi.huntingFresh, hi.counters, hi.buffer, hi.output⟩

theorem pairFirst_keeps_inv (hi : Inv s) (hm : s.mode = .locked) (b : Sym) : Inv (s.pairFirst b) :=
  ⟨hi.legal, huntingFresh_of_locked hm, hi.counters, hi.buffer, hi.output⟩

theorem onSymbol_keeps_inv (hi : Inv s) (h : s.onSymbol b = .ok t) : Inv t := by
  cases hm : s.mode with
  | hunting =>
    rw [onSymbol_hunting s b hm] at h
    obtain rfl := Except.ok.inj h
    exact huntShift_keeps_inv hi b
  | locked =>
    cases hp : s.phase with
    | false =>
      rw [onSymbol_first s b hm hp] at h
      obtain rfl := Except.ok.inj h
      exact pairFirst_keeps_inv hi hm b
    | true => exact pairSecond_keeps_inv hi hm (onSymbol_second s b hm hp ▸ h)

/-- A transaction that presents no new configuration is taken within the invariant: no frame is driven yet. -/
theorem stateAtExec_keeps_inv (hi : Inv s) {x : Transaction} (rest : List Transaction)
    (hcfg : x.cfg.getD s.cfg = s.cfg) : Inv (stateAtExec s x rest) := by
  rw [stateAtExec, hcfg]
  exact ⟨hi.legal, hi.huntingFresh, hi.counters, hi.buffer, outputOk_of_none rfl⟩

/-- Settles O48, by what the transaction presents: a reset leaves a fresh state under its own configuration, and anything
else runs under the configuration in force. -/
theorem stepKeepsInvariant : Obligations.StepKeepsInvariant := by
  intro s t hi h
  rcases step_next_cases s t h with ⟨-, -, rfl⟩ | ⟨x, rest, -, ⟨hl, hacc⟩, hx⟩
  · exact ⟨hi.legal, hi.huntingFresh, hi.counters, hi.buffer, outputOk_of_none rfl⟩
  have hcfg (hr : x.word.rst = false) : x.cfg.getD s.cfg = s.cfg := hacc.resolve_right (by simp [hr])
  rcases decodePort_cases x.word with ⟨-, y, hy⟩ | ⟨hr, y, hy⟩ | ⟨hr, b, hb⟩
  · rw [hy] at hx
    obtain rfl := Host.Outcome.next.inj hx
    exact inv_of_fresh hl (fresh_resetCore _) (outputOk_of_none rfl)
  · rw [hy] at hx
    obtain rfl := Host.Outcome.next.inj hx
    exact stateAtExec_keeps_inv hi rest (hcfg hr)
  · rw [exec_of_symbol _ b _ hb, answerOf_next] at hx
    exact onSymbol_keeps_inv (stateAtExec_keeps_inv hi rest (hcfg hr)) hx

end Sys2Proof.Proofs
end

section
/-! Which steps write the window (R22, R206 (6)). -/

namespace Sys2Proof.Proofs

open Sys2Proof.Machine Sys2Proof.Safety

/-- Settles O21: without `rst` a step only waits or takes one symbol, and while LOCKED a symbol keeps the window. -/
theorem windowChangesOnlyHuntingOrReset : Obligations.WindowChangesOnlyHuntingOrReset := by
  intro s t h hwin
  rcases step_next_cases s t h with ⟨-, -, rfl⟩ | ⟨x, rest, hin, -, hx⟩
  · exact absurd rfl hwin
  rcases decodePort_cases x.word with ⟨hr, -⟩ | ⟨-, y, hy⟩ | ⟨-, b, hb⟩
  · exact .inr ⟨x, rest, hin, hr⟩
  · rw [hy] at hx
    obtain rfl := Host.Outcome.next.inj hx
    exact absurd rfl hwin
  · cases hm : s.mode with
    | hunting => exact .inl rfl
    | locked =>
      have hkept := (windowUntouchedWhileLocked _ b (stateAtExec s x rest) t s.win hb hm hx).1
      exact absurd hkept hwin

end Sys2Proof.Proofs
end

section
/-! How a decoded bit that ends no frame counts (R75, R142, R206 (4)). -/

namespace Sys2Proof.Proofs

open Sys2Proof.Machine Sys2Proof.Safety

variable {s : State} {b : Sym}

/-- A word BIT_ACCUMULATE is no byte's last bit (R75). -/
theorem bitpos_ne_of_decode_bitAccumulate {e : Bool}
    (h : decode (.outcome (outcomeWord s b)) = .ok (.bitAccumulate e)) : s.bitpos ≠ 7#3 := by
  rw [decode_outcomeWord] at h
  split_ifs at h with ht hrs hfull hbc <;> cases h
  exact fun hb => hbc ((flagBc_iff (by simpa using ht)).2 hb)

/-- A word BYTE_STORE is a byte's last bit (R75). -/
theorem bitpos_eq_of_decode_byteStore {e : Bool}
    (h : decode (.outcome (outcomeWord s b)) = .ok (.byteStore e)) : s.bitpos = 7#3 := by
  rw [decode_outcomeWord] at h
  split_ifs at h with ht hrs hfull hbc <;> cases h
  exact (flagBc_iff (by simpa using ht)).1 hbc

/-- Settles O35: BIT_ACCUMULATE counts a bit short of the byte boundary, BYTE_STORE trades seven bits for a byte. -/
theorem bitsOfFrameAreCounted : Obligations.BitsOfFrameAreCounted := by
  intro s t b i hc h hi hout
  rw [secondSymbolRunsItsOutcome s b i hc hi] at h
  obtain ⟨e, rfl | rfl⟩ := hout
  · have hne := bitpos_ne_of_decode_bitAccumulate hi
    obtain rfl := Host.Outcome.next.inj h
    simp only [State.decodePair_count, State.decodePair_bitpos]
    bv_omega
  · have hlast := bitpos_eq_of_decode_byteStore hi
    obtain ⟨-, rfl⟩ := storeByte_ok ((answerOf_next _ t).1 h)
    simp only [State.decodePair_count, State.decodePair_bitpos, hlast]
    bv_omega

end Sys2Proof.Proofs
end

section
/-! The step around the instruction of a port word (R71, R72, R200), and the idle word's (R203). -/

namespace Sys2Proof.Proofs

open Sys2Proof.Machine Sys2Proof.Safety

/-- Both port formats are total: the decoder gives a port word the instruction the core runs (R81). -/
theorem decode_toEnc (w : PortWord) : decode w.toEnc = .ok (decodePort w) := by
  cases w <;> rfl

/-- Settles O5: the decoded instruction is the one the fetch hands to `exec`. -/
theorem stepRunsDecodedInstruction : Obligations.StepRunsDecodedInstruction := by
  intro s x rest i hin hi _ hc
  obtain rfl := Except.ok.inj ((decode_toEnc x.word).symm.trans hi)
  exact step_of_accepted s x rest hin hc

theorem decodePort_idle_word (x : Bool) : decodePort (.inp (0b00#2 ++ BitVec.ofBool x)) = .idle x := by
  revert x; decide

/-- Settles O10: IDLE is the identity, and the word that presents it is accepted under a legal configuration. -/
theorem idleChangesNothing : Obligations.IdleChangesNothing := by
  refine fun x s => ⟨rfl, fun rest hl hin => ?_⟩
  rw [step_of_accepted s _ rest hin ⟨hl, .inl rfl⟩, decodePort_idle_word]
  rfl

end Sys2Proof.Proofs
end

section
/-! The event labels of one step (R235): of the three that end a frame it reports at most one (R236). -/

namespace Sys2Proof.Proofs

open Sys2Proof.Machine

variable {s : State} {b : Sym}

theorem length_eventIf (c : Bool) (e : Event) : (eventIf c e).length = c.toNat := by
  cases c <;> rfl

theorem filter_eventIf (p : Event → Bool) (c : Bool) (e : Event) :
    (eventIf c e).filter p = if p e then eventIf c e else [] := by
  cases c <;> simp [eventIf, List.filter_singleton]

/-- A driven frame brings no label but EV_CRC_BAD (R235). -/
theorem filter_frameEvents (p : Event → Bool) (hp : p .crcBad = false) (out : Option Frame) :
    (frameEvents out).filter p = [] := by
  cases out with
  | none => rfl
  | some f => rw [frameEvents, filter_eventIf, hp, if_neg Bool.false_ne_true]

/-- A label of a symbol that ends a frame stands for its flag, and only a second symbol has one (R235). -/
theorem length_filter_symbolEvents_le (s : State) (b : Sym) (out : Option Frame) :
    ((symbolEvents s b out).filter (fun e => e == .violAbort || e == .resync || e == .maxlen)).length ≤
      (flagTrip s b).toNat + (flagRs s b).toNat + (flagFull s b).toNat := by
  cases hm : s.mode with
  | hunting => simp [symbolEvents, hm, filter_eventIf]
  | locked =>
    cases hp : s.phase with
    | false => simp [symbolEvents, hm, hp]
    | true => simp [symbolEvents, hm, hp, filter_eventIf, filter_frameEvents, length_eventIf, Nat.add_assoc]

/-- `full` excludes `trip` (R75). -/
theorem flagTrip_of_flagFull (h : flagFull s b = true) : flagTrip s b = false := by
  have hbc := flagBc_of_flagFull h
  simp only [flagBc, Bool.and_eq_true, Bool.not_eq_true'] at hbc
  exact hbc.1

/-- `full` excludes `rs`: a byte's last bit is not its second (R75). -/
theorem flagRs_of_flagFull (h : flagFull s b = true) : flagRs s b = false := by
  have ht := flagTrip_of_flagFull h
  have hlast := (flagBc_iff ht).1 (flagBc_of_flagFull h)
  refine Bool.eq_false_iff.2 fun hrs => ?_
  obtain ⟨hsecond, -⟩ := (flagRs_iff ht).1 hrs
  exact absurd (hlast.symm.trans hsecond) (by decide)

/-- Settles O46: of the three flags behind the labels at most one is set. -/
theorem frameEndingEventsExclude : Obligations.FrameEndingEventsExclude := by
  intro s b out
  refine (length_filter_symbolEvents_le s b out).trans ?_
  cases hfull : flagFull s b with
  | true => rw [flagTrip_of_flagFull hfull, flagRs_of_flagFull hfull]; decide
  | false =>
    cases hrs : flagRs s b with
    | true => rw [flagTrip_of_flagRs hrs]; decide
    | false => exact Bool.toNat_le _

end Sys2Proof.Proofs
end

section
/-! The core never stops by itself (R230, R271): within the buffer a symbol is answered, whatever its outcome. -/

namespace Sys2Proof.Proofs

open Sys2Proof.Machine Sys2Proof.Safety

variable {s : State}

/-- Each outcome's buffer accesses are within the buffer, and RESYNC finds a byte to drop (R53, R143). -/
theorem pairSecond_answers (hc : s.count < s.cfg.capacity) (b : Sym) : ∃ t, s.pairSecond b = .ok t := by
  rw [pairSecond_eq]
  cases ht : flagTrip s b with
  | true => exact ⟨_, endFrame_of_le (s.takePair true) hc.le⟩
  | false =>
    rw [if_neg Bool.false_ne_true, assemble_of_flags hc.le ht]
    split_ifs with hrs hbc hfull
    · obtain ⟨-, h2, -⟩ := (flagRs_iff ht).1 hrs
      exact ⟨_, splitFrame_of_le (s.decodePair (flagEq s b)) (Nat.one_le_of_lt h2) (Nat.le_succ_of_le hc.le)⟩
    · exact ⟨_, completeFrame_of_lt (s.decodePair (flagEq s b)) hc⟩
    · exact ⟨_, storeByte_of_lt (s.decodePair (flagEq s b)) hc⟩
    · exact ⟨_, rfl⟩

theorem onSymbol_answers (hc : s.count < s.cfg.capacity) (b : Sym) : ∃ t, s.onSymbol b = .ok t := by
  cases hm : s.mode with
  | hunting => exact ⟨_, onSymbol_hunting s b hm⟩
  | locked =>
    cases hp : s.phase with
    | false => exact ⟨_, onSymbol_first s b hm hp⟩
    | true => rw [onSymbol_second s b hm hp]; exact pairSecond_answers hc b

/-- Settles O49, by what the transaction presents: a reset and an idle always answer, and a symbol comes without `rst`,
so it runs under the configuration that the invariant bounds the count by. -/
theorem everyStepCompletes : Obligations.EveryStepCompletes := by
  intro s hi hacc
  cases hin : s.input with
  | nil => exact ⟨_, (step_of_nil s hin).trans (if_pos hi.legal)⟩
  | cons x rest =>
    have hx : ConfigAccepted s x := hacc x rest hin
    rw [step_of_accepted s x rest hin hx]
    rcases decodePort_cases x.word with ⟨-, y, hy⟩ | ⟨-, y, hy⟩ | ⟨hr, b, hb⟩
    · rw [hy]; exact ⟨_, rfl⟩
    · rw [hy]; exact ⟨_, rfl⟩
    · have hcfg : x.cfg.getD s.cfg = s.cfg := hx.2.resolve_right (by simp [hr])
      obtain ⟨t, ht⟩ := onSymbol_answers (stateAtExec_keeps_inv hi rest hcfg).counters.1 b
      exact ⟨t, by rw [exec_of_symbol _ b _ hb, ht, answerOf_ok]⟩

end Sys2Proof.Proofs
end

section
/-! Which frame a step drives (R201, R270): the one its symbol ends, of the three outcomes that end one, and none
otherwise; and the step with nothing presented. -/

namespace Sys2Proof.Proofs

open Sys2Proof.Machine Sys2Proof.Safety

variable {s t : State} {b : Sym} {f : Frame}

/-- Settles O6: an empty input is fetched as a wait. -/
theorem stepWithNothingPresentedHolds : Obligations.StepWithNothingPresentedHolds := fun s hin hl =>
  (step_of_nil s hin).trans (if_pos hl)

/-- The frame output after a second symbol, outcome by outcome (R123, R144, R147). -/
theorem pairSecond_frameOut (hc : s.count < s.cfg.capacity) (h : exec (.pairSecond b) s = .next t) :
    t.frameOut =
      if flagTrip s b then (if s.count = 0 then s.frameOut else some (heldFrame s s.count))
      else if flagRs s b then some (heldFrame s (s.count - 1))
      else if flagFull s b then some (heldFrame { s with buf := s.buf.write s.count (accNext s) } (s.count + 1))
      else s.frameOut := by
  have runs {i : Instr} (hi : decode (.outcome (outcomeWord s b)) = .ok i) : exec i s = .next t :=
    (secondSymbolRunsItsOutcome s b i hc.le hi).symm.trans h
  by_cases htrip : flagTrip s b = true
  · have hx := runs (decode_of_flagTrip htrip)
    obtain rfl := Host.Outcome.next.inj ((exec_violationAbort_of_le hc.le).symm.trans hx)
    rw [if_pos htrip]; rfl
  rw [if_neg htrip]
  by_cases hrs : flagRs s b = true
  · obtain ⟨-, h2, -⟩ := (flagRs_iff (Bool.eq_false_iff.2 htrip)).1 hrs
    have hx := runs (decode_of_flagRs hrs)
    obtain rfl := Host.Outcome.next.inj ((exec_resync_of_le _ h2 hc.le).symm.trans hx)
    rw [if_pos hrs]; rfl
  rw [if_neg hrs]
  by_cases hfull : flagFull s b = true
  · have hx := runs (decode_of_flagFull hfull)
    obtain rfl := Host.Outcome.next.inj ((exec_maxlenComplete_of_lt _ hc).symm.trans hx)
    rw [if_pos hfull]; rfl
  rw [if_neg hfull]
  exact (pairSecond_frameOut_or_flag hc.le ((answerOf_next _ t).1 h)).resolve_right (by simp [htrip, hrs, hfull])

/-- A symbol taken with no frame driven drives exactly the frame it ends. -/
theorem onSymbol_frameOut (hc : s.count < s.cfg.capacity) (hout : s.frameOut = none) (h : s.onSymbol b = .ok t) :
    t.frameOut = frameEndedBy s b := by
  cases hm : s.mode with
  | hunting =>
    rw [onSymbol_hunting s b hm] at h
    obtain rfl := Except.ok.inj h
    rw [huntShift_frameOut, hout, frameEndedBy, if_neg (by simp [hm])]
  | locked =>
    cases hp : s.phase with
    | false =>
      rw [onSymbol_first s b hm hp] at h
      obtain rfl := Except.ok.inj h
      rw [State.pairFirst_frameOut, hout, frameEndedBy, if_neg (by simp [hp])]
    | true =>
      rw [onSymbol_second s b hm hp] at h
      rw [pairSecond_frameOut hc (congrArg answerOf h), hout]
      exact (if_pos ⟨hm, hp⟩).symm

/-- Which frame a symbol ends does not depend on what the fetch writes. -/
theorem frameEndedBy_stateAtExec {x : Transaction} (rest : List Transaction) (hcfg : x.cfg.getD s.cfg = s.cfg) :
    frameEndedBy (stateAtExec s x rest) b = frameEndedBy s b := by
  rw [stateAtExec, hcfg]; rfl

/-- The next transaction brings a symbol that ends the frame `f`. -/
def NextEndsFrame (s : State) (f : Frame) : Prop :=
  ∃ x rest b, s.input = x :: rest ∧ symbolOf (decodePort x.word) = some b ∧ frameEndedBy s b = some f

/-- A transaction brings at most one symbol, so this one alone decides whether a frame ends. -/
theorem nextEndsFrame_iff_of_symbol {x : Transaction} {rest : List Transaction} (hin : s.input = x :: rest)
    (hb : symbolOf (decodePort x.word) = some b) : NextEndsFrame s f ↔ frameEndedBy s b = some f := by
  refine ⟨?_, fun h => ⟨x, rest, b, hin, hb, h⟩⟩
  rintro ⟨y, rest', c, hin', hc, hf⟩
  obtain ⟨rfl, -⟩ := List.cons.inj (hin.symm.trans hin')
  obtain rfl := Option.some.inj (hb.symm.trans hc)
  exact hf

/-- A transaction without a symbol ends no frame (R203, R236). -/
theorem not_nextEndsFrame_of_no_symbol {x : Transaction} {rest : List Transaction} (hin : s.input = x :: rest)
    (hb : symbolOf (decodePort x.word) = none) : ¬ NextEndsFrame s f := by
  rintro ⟨y, rest', c, hin', hc, -⟩
  obtain ⟨rfl, -⟩ := List.cons.inj (hin.symm.trans hin')
  cases hb.symm.trans hc

/-- From the invariant a step drives the frame its symbol ends, and no other (R201). -/
theorem step_frameOut_iff (hi : Inv s) (h : step s = .next t) : t.frameOut = some f ↔ NextEndsFrame s f := by
  rcases step_next_cases s t h with ⟨hnil, -, rfl⟩ | ⟨x, rest, hin, ⟨-, hacc⟩, hx⟩
  · exact ⟨nofun, fun ⟨_, _, _, hin, _⟩ => nomatch hnil.symm.trans hin⟩
  rcases decodePort_cases x.word with ⟨-, y, hy⟩ | ⟨-, y, hy⟩ | ⟨hr, b, hb⟩
  · rw [hy] at hx
    obtain rfl := Host.Outcome.next.inj hx
    exact iff_of_false nofun (not_nextEndsFrame_of_no_symbol hin (by rw [hy]; rfl))
  · rw [hy] at hx
    obtain rfl := Host.Outcome.next.inj hx
    exact iff_of_false nofun (not_nextEndsFrame_of_no_symbol hin (by rw [hy]; rfl))
  · have hcfg : x.cfg.getD s.cfg = s.cfg := hacc.resolve_right (by simp [hr])
    rw [exec_of_symbol _ b _ hb, answerOf_next] at hx
    rw [onSymbol_frameOut (stateAtExec_keeps_inv hi rest hcfg).counters.1 rfl hx, frameEndedBy_stateAtExec rest hcfg,
      nextEndsFrame_iff_of_symbol hin hb]

end Sys2Proof.Proofs
end

section
/-! A run over accepted transactions (R270, R271): it takes one step per transaction, stays in the invariant, and its
frames are those its steps end. -/

namespace Sys2Proof.Proofs

open Sys2Proof.Machine Sys2Proof.Safety

variable {s t u : State} {n : Nat}

/-- A state of the invariant whose transactions are all accepted. -/
structure Ready (s : State) : Prop where
  inv : Inv s
  accepted : AllAccepted s.cfg s.input

/-- A ready state takes its next transaction in one step and stays ready. -/
theorem step_of_ready {x : Transaction} {rest : List Transaction} (hs : Ready s) (hin : s.input = x :: rest) :
    ∃ t, step s = .next t ∧ Ready t ∧ t.input = rest ∧ t.stepNo = s.stepNo + 1 := by
  obtain ⟨hl, hc, hrest⟩ : AllAccepted s.cfg (x :: rest) := hin ▸ hs.accepted
  have hx : ConfigAccepted s x := ⟨hl, hc⟩
  obtain ⟨t, ht⟩ := everyStepCompletes s hs.inv fun y r hy => by
    obtain ⟨rfl, -⟩ := List.cons.inj (hin.symm.trans hy)
    exact hx
  obtain ⟨hcfg, hinput, hno⟩ := noInstructionWritesConfig _ _ _ ((step_of_accepted s x rest hin hx).symm.trans ht)
  refine ⟨t, ht, ⟨stepKeepsInvariant s t hs.inv ht, ?_⟩, hinput, hno⟩
  rw [hcfg, hinput]
  exact hrest

/-- A run's last step adds the frame driven in it. -/
theorem observe_succ_of_final (hu : (observe n s).final = .next u) (ht : step u = .next t) :
    (observe (n + 1) s).frames = (observe n s).frames ++ t.emitted ∧ (observe (n + 1) s).final = .next t := by
  obtain ⟨hframes, hfinal⟩ := observe_add n 1 s u hu
  obtain ⟨hframes', hfinal'⟩ := observe_succ_of_next 0 u t ht
  rw [hframes, hfinal, hframes', hfinal']
  exact ⟨by rw [observe, List.append_nil], rfl⟩

/-- After `n` steps a ready state has taken its first `n` transactions and is ready for the rest. -/
theorem observe_of_ready (hs : Ready s) (hn : n ≤ s.input.length) :
    ∃ t, (observe n s).final = .next t ∧ Ready t ∧ t.input = s.input.drop n ∧ t.stepNo = s.stepNo + n := by
  induction n with
  | zero => exact ⟨s, rfl, hs, rfl, rfl⟩
  | succ n ih =>
    obtain ⟨u, hu, hready, hinput, hno⟩ := ih (Nat.le_of_succ_le hn)
    rw [List.drop_eq_getElem_cons hn] at hinput
    obtain ⟨t, ht, hready', hinput', hno'⟩ := step_of_ready hready hinput
    exact ⟨t, (observe_succ_of_final hu ht).2, hready', hinput', by rw [hno', hno]; rfl⟩

/-- The last of `n + 1` steps of a ready state, between the states it leads from and to. -/
theorem last_step_of_ready (hs : Ready s) (hn : n < s.input.length) :
    ∃ u t, (observe n s).final = .next u ∧ Ready u ∧ u.input = s.input.drop n ∧ u.stepNo = s.stepNo + n ∧
      step u = .next t ∧ t.stepNo = u.stepNo + 1 := by
  obtain ⟨u, hu, hready, hinput, hno⟩ := observe_of_ready hs hn.le
  obtain ⟨t, ht, -, -, hno'⟩ := step_of_ready hready (hinput.trans (List.drop_eq_getElem_cons hn))
  exact ⟨u, t, hu, hready, hinput, hno, ht, hno'⟩

/-- The frames of `n` steps: for each step that takes a symbol ending a frame, that frame under the step's number. -/
theorem mem_observe_frames_iff (hs : Ready s) (hn : n ≤ s.input.length) (k : Nat) (f : Frame) :
    (k, f) ∈ (observe n s).frames ↔
      ∃ j < n, k = s.stepNo + j + 1 ∧ ∃ u, (observe j s).final = .next u ∧ NextEndsFrame u f := by
  induction n with
  | zero => exact iff_of_false List.not_mem_nil fun ⟨_, hj, _⟩ => absurd hj (Nat.not_lt_zero _)
  | succ n ih =>
    obtain ⟨u, t, hu, hready, -, hno, ht, hno'⟩ := last_step_of_ready hs hn
    have hlast : NextEndsFrame u f ↔ ∃ v, (observe n s).final = .next v ∧ NextEndsFrame v f := by
      simp only [hu, Host.Outcome.next.injEq, exists_eq_left']
    rw [(observe_succ_of_final hu ht).1, List.mem_append, ih (Nat.le_of_succ_le hn), mem_emitted,
      step_frameOut_iff hready.inv ht, hno', hno, hlast, Nat.exists_lt_succ_right]

/-- Settles O52, from the state and the frames after as many steps as there are transactions. -/
theorem runTakesEveryTransaction : Obligations.RunTakesEveryTransaction := by
  intro s hi hacc
  obtain ⟨t, hfinal, hready, hinput, hno⟩ := observe_of_ready ⟨hi, hacc⟩ le_rfl
  refine ⟨⟨t, hfinal, by rw [hinput, List.drop_length], hno, hready.inv⟩, fun k f => ?_⟩
  rw [State.run, mem_observe_frames_iff ⟨hi, hacc⟩ le_rfl]
  constructor
  · rintro ⟨j, hj, hk, u, hu, x, rest, b, hin, hb, hf⟩
    exact ⟨j, u, x, rest, b, hj, hk, hu, hin, hb, hf⟩
  · rintro ⟨j, u, x, rest, b, hj, hk, hu, hin, hb, hf⟩
    exact ⟨j, hj, hk, u, hu, x, rest, b, hin, hb, hf⟩

end Sys2Proof.Proofs
end

section
/-! A run that stays inside a frame (R234, R270): a symbol that only accumulates its bit or stores a byte ends no frame,
and what the frame holds is kept. -/

namespace Sys2Proof.Proofs

open Sys2Proof.Machine Sys2Proof.Safety

variable {s t u : State} {b : Sym}

/-- As a second symbol, `b` only accumulates its bit or stores a byte (R141, R145). -/
def StaysInFrame (s : State) (b : Sym) : Prop :=
  ∃ e, decode (.outcome (outcomeWord s b)) = .ok (.bitAccumulate e) ∨
    decode (.outcome (outcomeWord s b)) = .ok (.byteStore e)

theorem frameEndedBy_of_staysInFrame (h : StaysInFrame s b) : frameEndedBy s b = none := by
  have hflags : flagTrip s b ≠ true ∧ flagRs s b ≠ true ∧ flagFull s b ≠ true := by
    obtain ⟨e, h⟩ := h
    refine ⟨fun hf => ?_, fun hf => ?_, fun hf => ?_⟩
    · simp [decode_of_flagTrip hf] at h
    · simp [decode_of_flagRs hf] at h
    · simp [decode_of_flagFull hf] at h
  obtain ⟨htrip, hrs, hfull⟩ := hflags
  rw [frameEndedBy, if_neg htrip, if_neg hrs, if_neg hfull, ite_self]

/-- In `t` the frame of `s` goes on: what `s` holds of it is still there. -/
structure FrameContinues (s t : State) : Prop where
  mode : t.mode = s.mode
  count : s.count ≤ t.count
  bits : 8 * s.count + s.bitpos.toNat ≤ 8 * t.count + t.bitpos.toNat
  bytes : ∀ a, a < s.count → t.buf.read a = s.buf.read a

theorem FrameContinues.of_same_frame (hm : t.mode = s.mode) (hc : t.count = s.count) (hp : t.bitpos = s.bitpos)
    (hb : t.buf = s.buf) : FrameContinues s t :=
  ⟨hm, hc.ge, by rw [hc, hp], fun _ _ => by rw [hb]⟩

theorem FrameContinues.trans (h : FrameContinues s t) (h' : FrameContinues t u) : FrameContinues s u :=
  ⟨h'.mode.trans h.mode, h.count.trans h'.count, h.bits.trans h'.bits,
    fun a ha => (h'.bytes a (ha.trans_le h.count)).trans (h.bytes a ha)⟩

/-- BIT_ACCUMULATE writes no byte and BYTE_STORE one behind those stored; either counts one bit more (R206 (4)). -/
theorem pairSecond_continues (hc : s.count < s.cfg.capacity) (hb : StaysInFrame s b)
    (h : exec (.pairSecond b) s = .next t) : FrameContinues s t := by
  obtain ⟨e, hi | hi⟩ := hb
  · have hbits := bitsOfFrameAreCounted s t b _ hc.le h hi ⟨e, .inl rfl⟩
    rw [secondSymbolRunsItsOutcome s b _ hc.le hi] at h
    obtain rfl := Host.Outcome.next.inj h
    exact ⟨rfl, le_rfl, by omega, fun _ _ => rfl⟩
  · have hbits := bitsOfFrameAreCounted s t b _ hc.le h hi ⟨e, .inr rfl⟩
    rw [secondSymbolRunsItsOutcome s b _ hc.le hi] at h
    obtain rfl := Host.Outcome.next.inj ((exec_byteStore_of_lt e hc).symm.trans h)
    exact ⟨rfl, Nat.le_succ _, by omega, fun a ha => by rw [Memory.read_write, if_neg ha.ne]⟩

theorem onSymbol_continues (hc : s.count < s.cfg.capacity) (hm : s.mode = .locked)
    (hb : s.phase = true → StaysInFrame s b) (h : s.onSymbol b = .ok t) : FrameContinues s t := by
  cases hp : s.phase with
  | false =>
    rw [onSymbol_first s b hm hp] at h
    obtain rfl := Except.ok.inj h
    exact .of_same_frame rfl rfl rfl rfl
  | true =>
    rw [onSymbol_second s b hm hp] at h
    exact pairSecond_continues hc (hb hp) (congrArg answerOf h)

/-- The next transaction, if it brings a second symbol, stays in the frame. -/
def NextStaysInFrame (s : State) : Prop :=
  ∀ x rest b, s.input = x :: rest → symbolOf (decodePort x.word) = some b → s.phase = true → StaysInFrame s b

/-- While LOCKED a step without `rst` that stays in the frame keeps what is held of it. -/
theorem step_continues (hi : Inv s) (hm : s.mode = .locked) (hr : ∀ x ∈ s.input, x.word.rst = false)
    (hstay : NextStaysInFrame s) (h : step s = .next t) : FrameContinues s t := by
  rcases step_next_cases s t h with ⟨-, -, rfl⟩ | ⟨x, rest, hin, ⟨-, hacc⟩, hx⟩
  · exact .of_same_frame rfl rfl rfl rfl
  have hrst : x.word.rst = false := hr x (by rw [hin]; exact List.mem_cons_self)
  have hcfg : x.cfg.getD s.cfg = s.cfg := hacc.resolve_right (by simp [hrst])
  have htaken : FrameContinues s (stateAtExec s x rest) := .of_same_frame rfl rfl rfl rfl
  rcases decodePort_cases x.word with ⟨hr', -⟩ | ⟨-, y, hy⟩ | ⟨-, b, hb⟩
  · cases hrst.symm.trans hr'
  · rw [hy] at hx
    obtain rfl := Host.Outcome.next.inj hx
    exact htaken
  · rw [exec_of_symbol _ b _ hb, answerOf_next] at hx
    refine htaken.trans (onSymbol_continues (stateAtExec_keeps_inv hi rest hcfg).counters.1 hm (fun hp => ?_) hx)
    rw [StaysInFrame, outcomeWord_stateAtExec rest hcfg]
    exact hstay x rest b hin hb hp

/-- A run that stays in the frame keeps, step by step, what is held of it. -/
theorem observe_continues {n : Nat} (hs : Ready s) (hm : s.mode = .locked) (hr : ∀ x ∈ s.input, x.word.rst = false)
    (hstay : ∀ j u, j < s.input.length → (observe j s).final = .next u → NextStaysInFrame u)
    (hn : n ≤ s.input.length) : ∀ t, (observe n s).final = .next t → FrameContinues s t := by
  induction n with
  | zero =>
    intro t ht
    obtain rfl := Host.Outcome.next.inj ht
    exact .of_same_frame rfl rfl rfl rfl
  | succ n ih =>
    intro t ht
    obtain ⟨u, v, hu, hready, hinput, -, hv, -⟩ := last_step_of_ready hs hn
    obtain rfl := Host.Outcome.next.inj ((observe_succ_of_final hu hv).2.symm.trans ht)
    have hsofar : FrameContinues s u := ih (Nat.le_of_succ_le hn) u hu
    refine hsofar.trans (step_continues hready.inv (hsofar.mode.trans hm) (fun x hx => ?_) (hstay n u hn hu) hv)
    rw [hinput] at hx
    exact hr x (List.mem_of_mem_drop hx)

/-- Only a second symbol ends a frame (R170). -/
theorem phase_of_frameEndedBy {f : Frame} (h : frameEndedBy s b = some f) : s.phase = true := by
  by_contra hp
  rw [frameEndedBy, if_neg fun hsecond => hp hsecond.2] at h
  cases h

theorem not_nextEndsFrame (hstay : NextStaysInFrame s) (f : Frame) : ¬ NextEndsFrame s f := by
  rintro ⟨x, rest, b, hin, hb, hf⟩
  have hnone := frameEndedBy_of_staysInFrame (hstay x rest b hin hb (phase_of_frameEndedBy hf))
  cases hnone.symm.trans hf

/-- Settles O53: no step of the run ends a frame, and the frame goes on to the last one. -/
theorem partialFrameIsKeptNotEmitted : Obligations.PartialFrameIsKeptNotEmitted := by
  intro s hi hm hacc hr hsecond
  have hs : Ready s := ⟨hi, hacc⟩
  have hstay (j : Nat) (u : State) (hj : j < s.input.length) (hu : (observe j s).final = .next u) :
      NextStaysInFrame u := fun x rest b => hsecond j u x rest b hj hu
  obtain ⟨t, hfinal, -, hinput, -⟩ := observe_of_ready hs le_rfl
  obtain ⟨hmode, hcount, hbits, hbytes⟩ := observe_continues hs hm hr hstay le_rfl t hfinal
  refine ⟨List.eq_nil_iff_forall_not_mem.2 fun ⟨k, f⟩ hmem => ?_, t, hfinal, by rw [hinput, List.drop_length],
    hmode.trans hm, hcount, hbits, hbytes⟩
  obtain ⟨j, hj, -, u, hu, hends⟩ := (mem_observe_frames_iff hs le_rfl k f).1 hmem
  exact not_nextEndsFrame (hstay j u hj hu) f hends

end Sys2Proof.Proofs
end
